-- ==== Sys2Proof/Word.lean ====
section
/-! DEFINITION. The word types of the block (00_scope.md R7, R8; 30_encoding.md R91). -/

namespace Sys2Proof

/-- An unsigned 8-bit integer, bit `i` of weight `2^i` (R7, R8). A `SegmentPattern` is such a byte (R39). -/
abbrev Byte := BitVec 8

/-- An operand as a request port of operand width `w` carries it: `w`-bit two's complement (R6, R91). -/
abbrev Operand (w : Nat) := BitVec w

/-- A request operation code `req_op[3:0]` (R89, R90). -/
abbrev ReqOp := BitVec 4

/-- A Command as one 16-bit word `{opcode, data}` (R55, R80). -/
abbrev CommandWord := BitVec 16

end Sys2Proof
end

