-- ==== Sys2Proof/Config.lean ====
section
/-! DEFINITION. The parameters of 00_scope.md R6 and the values the spec leaves open. None of the open ones has
a body, so nothing can be proved from a value of it. Each type lets in exactly the values its rule allows
(log 2, log 5, log 7). -/

namespace Sys2Proof

/-- What DISPLAYNUMBER shows at position 0 for the value 0 with leading zeros off (R6, R171, decision D14). -/
inductive ZeroUnits where
  | digit
  | blank
  deriving DecidableEq, Repr, Inhabited

/-- The OPEN contents of DIGIT_ROM (R27, decision D6), entry `v` as its byte less one: `Fin 127` reaches the
bytes 0x01 to 0x7F, those with bit 7 clear and some segment lit, which R112 (a) and (b) ask of every entry. -/
opaque Config.digitGlyph : Fin 16 → Fin 127

/-- The OPEN first entry of CHAR_ROM, that of the character `'0'` (R28, R113 (b), decisions D6, D7). -/
opaque Config.charFirst : Byte

/-- The OPEN further entries of CHAR_ROM, and with their number CHAR_LEN (R28, decisions D6, D7). -/
opaque Config.charRest : List Byte

/-- The OPEN level that CONSTRUCT sends, 0 to 15 (R6, decision D8). -/
opaque Config.intensityDefault : Fin 16

/-- The OPEN parameter NUM_ZERO_UNITS (R6, R171, decision D14). -/
opaque Config.numZeroUnits : ZeroUnits

/-- W, the operand width of the request port: decided 32 by the spec (R6, decision D3). Params.operandWidth is the
parameter itself, any number from 12 on; the decoder, the encoder and the meanings hold for every width (log 2). -/
def Config.operandWidth : Nat := 32

/-- INIT_SCAN_RAW: decided false by the spec (R6, decision D9). Params.initScanRaw is the switch itself, and the
meanings obey it both ways (R233). -/
def Config.initScanRaw : Bool := false

/-- The FREE VALUE that SCAN_LIMIT takes when 8 digits are constructed, "any value 0 to 7, a draw" (R38, R233,
decision D19): the k-th draw of a run (log 7). -/
opaque Config.scanLimitDraw : Nat → Fin 8

end Sys2Proof
end

