-- ==== Sys2Proof/Syntax.lean ====
section
/-! DEFINITION. The Command, the request port's frame, and the ONE inductive of instructions, a constructor for
each row of spec/opcode_table.json. -/

namespace Sys2Proof

/-- The closed set of opcodes of 30_encoding.md R81, so that no other Command can be formed (R88). The byte of
each is `opcodeByte`. -/
inductive Opcode where
  /-- The digit register of one position, 0 the rightmost (R82, R153). -/
  | digit (position : Fin 8)
  | decodeMode
  | intensity
  | scanLimit
  | shutdown
  | displayTest
  deriving DecidableEq, Repr

/-- A Command: one atomic write to the chip (R58, R80). -/
structure Command where
  op   : Opcode
  data : Byte
  deriving DecidableEq, Repr

/-- What stands at the block's input. `request` is the request port of R89, field by field, of a
port whose operands are `w` bits wide (R6). `command` is one
Command word by itself, the model's own way to run a row of the table's format CMD (log 3); no requester can
present it. -/
inductive Frame where
  | request (w : Nat) (reqOp : ReqOp) (reqFlag : Bool) (reqA reqB : Operand w)
  | command (word : CommandWord)
  deriving DecidableEq, Repr

/-- One constructor per row of spec/opcode_table.json. Operands the rules call Int are Int (R8, R93). -/
inductive Instr where
  -- format CMD: the Commands of R81, with the fields of R83 to R87
  | digit0 (point : Bool) (segments : BitVec 7)
  | digit1 (point : Bool) (segments : BitVec 7)
  | digit2 (point : Bool) (segments : BitVec 7)
  | digit3 (point : Bool) (segments : BitVec 7)
  | digit4 (point : Bool) (segments : BitVec 7)
  | digit5 (point : Bool) (segments : BitVec 7)
  | digit6 (point : Bool) (segments : BitVec 7)
  | digit7 (point : Bool) (segments : BitVec 7)
  | decode
  | intensity (level : BitVec 4)
  | scanLimit (limit : BitVec 4)
  /-- The Command SHUTDOWN; its bit `n` is 1 for normal operation (R84). -/
  | shutdownCmd (normal : Bool)
  /-- The Command DISPLAYTEST; its bit `t` is 1 for test engaged (R85). -/
  | displayTestCmd (test : Bool)
  -- format REQ: the requests of R90, operands in the order of R93
  /-- `cs` is the chip-select identifier, opaque: only its identity counts (R230). -/
  | construct (cs : Nat) (numDigits : Int)
  | setIntensity (level : Int)
  | setScanLimit (limit : Int)
  | shutdown (enable : Bool)
  | displayTest (enable : Bool)
  | clearDigit (index : Int)
  | setDigit (index value : Int) (decimalPoint : Bool)
  | setChar (index asciiValue : Int) (decimalPoint : Bool)
  | displayNumber (value : Int) (leadingZeros : Bool)
  | displayTime (hour minute : Int)
  | displayMinutes (totalMinutes : Int)
  | digitPattern (value : Int)
  | charPattern (code : Int)
  /-- format INTERNAL: the last step of CONSTRUCT (R134). -/
  | decodeMode
  deriving DecidableEq, Repr

end Sys2Proof
end

