-- ==== Sys2Proof/WellFormed.lean ====
section
/-! DEFINITION. Which instructions have words: an operand fits a request port of operand width `w` (00_scope.md R6, 30_encoding.md R91), a Command's
data is one that some rule forms (R86). -/

namespace Sys2Proof

/-- The integers a `w`-bit two's complement operand can carry (R91). -/
def fitsOperand (w : Nat) (v : Int) : Bool :=
  decide (-(2 ^ (w - 1) : Int) ≤ v) && decide (v < 2 ^ (w - 1))

/-- The chip-select identifiers a `w`-bit operand can carry (R91). -/
def fitsIdentifier (w : Nat) (cs : Nat) : Bool :=
  decide (cs < 2 ^ w)

/-- The scan-limit data the block forms: 0 to 7, and 8 from CONSTRUCT under INIT_SCAN_RAW (R86, R233). -/
def scanLimitDataFormed (limit : BitVec 4) : Bool :=
  decide (limit.toNat ≤ 8)

/-- Every field of the instruction is one that its encoding, on a port of operand width `w`, can carry and the spec
gives a meaning there. -/
def WellFormed (w : Nat) : Instr → Bool
  | .digit0 _ _ => true
  | .digit1 _ _ => true
  | .digit2 _ _ => true
  | .digit3 _ _ => true
  | .digit4 _ _ => true
  | .digit5 _ _ => true
  | .digit6 _ _ => true
  | .digit7 _ _ => true
  | .decode => true
  | .intensity _ => true
  | .scanLimit limit => scanLimitDataFormed limit
  | .shutdownCmd _ => true
  | .displayTestCmd _ => true
  | .construct cs numDigits => fitsIdentifier w cs && fitsOperand w numDigits
  | .setIntensity level => fitsOperand w level
  | .setScanLimit limit => fitsOperand w limit
  | .shutdown _ => true
  | .displayTest _ => true
  | .clearDigit index => fitsOperand w index
  | .setDigit index value _ => fitsOperand w index && fitsOperand w value
  | .setChar index asciiValue _ => fitsOperand w index && fitsOperand w asciiValue
  | .displayNumber value _ => fitsOperand w value
  | .displayTime hour minute => fitsOperand w hour && fitsOperand w minute
  | .displayMinutes totalMinutes => fitsOperand w totalMinutes
  | .digitPattern value => fitsOperand w value
  | .charPattern code => fitsOperand w code
  | .decodeMode => true

end Sys2Proof
end

