-- ==== Sys2Proof/Decode.lean ====
section
/-! DEFINITION. The opcode bytes, the decoder from the port's frames to instructions (total, rejecting by name),
and the encoder. 30_encoding.md R80 to R91, R95. -/

namespace Sys2Proof

/-- Why a frame is no instruction. -/
inductive DecodeError where
  /-- `req_op` 0xD, 0xE or 0xF, which R90 reserves. -/
  | reservedRequest
  /-- A Command word whose opcode is not in the list of R81 (R88). -/
  | unknownOpcode
  /-- A Command word whose data no rule forms (R84 to R87). -/
  | dataNeverFormed
  /-- Bytes that are neither the two of a Command nor those of a packed request (R57, log 2). -/
  | badLength
  deriving DecidableEq, Repr

/-! ## The Command as bytes and as a word -/

/-- The opcode byte of each chip register: a digit position plus one (R82), and the five of R81. -/
def opcodeByte : Opcode → Byte
  | .digit position => BitVec.ofNat 8 (position.val + 1)
  | .decodeMode => 0x09
  | .intensity => 0x0A
  | .scanLimit => 0x0B
  | .shutdown => 0x0C
  | .displayTest => 0x0F

/-- The word `{opcode, data}` of a Command (R55, R80). -/
def commandWord (c : Command) : CommandWord := opcodeByte c.op ++ c.data

/-- The bytes of a Command in the order of transmission, opcode first (R54). -/
def commandBytes (c : Command) : List Byte := [opcodeByte c.op, c.data]

/-- The data byte of a digit-write Command from its two fields: bit 7 the decimal point, bits 6 to 0 the
segments (R83). -/
def digitFields (point : Bool) (segments : BitVec 7) : Byte := BitVec.ofBool point ++ segments

/-- A one-bit data byte, upper bits zero (R84, R85). -/
def bitData (b : Bool) : Byte := if b then 0x01 else 0x00

/-- A four-bit data byte, upper bits zero (R86). -/
def nibbleData (l : BitVec 4) : Byte := l.zeroExtend 8

/-! ## Decoder -/

/-- Sign extension of an operand to the integer the rules see (R91). -/
def operandInt {w : Nat} (a : Operand w) : Int := a.toInt

/-- R90: the operation a request names; a field the operation does not use is ignored. -/
def decodeRequest {w : Nat} (reqOp : ReqOp) (reqFlag : Bool) (reqA reqB : Operand w) : Except DecodeError Instr :=
  match reqOp.toNat with
  | 0x0 => .ok (.construct reqB.toNat (operandInt reqA))
  | 0x1 => .ok (.setIntensity (operandInt reqA))
  | 0x2 => .ok (.setScanLimit (operandInt reqA))
  | 0x3 => .ok (.shutdown reqFlag)
  | 0x4 => .ok (.displayTest reqFlag)
  | 0x5 => .ok (.clearDigit (operandInt reqA))
  | 0x6 => .ok (.setDigit (operandInt reqA) (operandInt reqB) reqFlag)
  | 0x7 => .ok (.setChar (operandInt reqA) (operandInt reqB) reqFlag)
  | 0x8 => .ok (.displayNumber (operandInt reqA) reqFlag)
  | 0x9 => .ok (.displayTime (operandInt reqA) (operandInt reqB))
  | 0xA => .ok (.displayMinutes (operandInt reqA))
  | 0xB => .ok (.digitPattern (operandInt reqA))
  | 0xC => .ok (.charPattern (operandInt reqA))
  | _ => .error .reservedRequest

/-- R95: reading a Command word back. Words whose opcode or data no rule forms are rejected (R88, R84 to R87). -/
def decodeCommand (w : CommandWord) : Except DecodeError Instr :=
  let data : Byte := w.extractLsb' 0 8
  let point := w.getLsbD 7
  let segments := w.extractLsb' 0 7
  match (w.extractLsb' 8 8).toNat with
  | 0x01 => .ok (.digit0 point segments)
  | 0x02 => .ok (.digit1 point segments)
  | 0x03 => .ok (.digit2 point segments)
  | 0x04 => .ok (.digit3 point segments)
  | 0x05 => .ok (.digit4 point segments)
  | 0x06 => .ok (.digit5 point segments)
  | 0x07 => .ok (.digit6 point segments)
  | 0x08 => .ok (.digit7 point segments)
  | 0x09 => if data = 0x00 then .ok .decode else .error .dataNeverFormed
  | 0x0A => if data.toNat ≤ 15 then .ok (.intensity (w.extractLsb' 0 4)) else .error .dataNeverFormed
  | 0x0B => if data.toNat ≤ 8 then .ok (.scanLimit (w.extractLsb' 0 4)) else .error .dataNeverFormed
  | 0x0C => if data.toNat ≤ 1 then .ok (.shutdownCmd (w.getLsbD 0)) else .error .dataNeverFormed
  | 0x0F => if data.toNat ≤ 1 then .ok (.displayTestCmd (w.getLsbD 0)) else .error .dataNeverFormed
  | _ => .error .unknownOpcode

/-- The decoder of the block's input. -/
def decodeFrame : Frame → Except DecodeError Instr
  | .request _ reqOp reqFlag reqA reqB => decodeRequest reqOp reqFlag reqA reqB
  | .command w => decodeCommand w

/-! ## Encoder -/

/-- An Int as a request port of operand width `w` carries it (R91). -/
def intOperand (w : Nat) (v : Int) : Operand w := BitVec.ofInt w v

/-- A chip-select identifier as a request port of operand width `w` carries it (R91). -/
def identifierOperand (w : Nat) (cs : Nat) : Operand w := BitVec.ofNat w cs

/-- The word of a digit-write Command from its fields (R82, R83). -/
def digitWord (opcode : Byte) (point : Bool) (segments : BitVec 7) : Frame :=
  .command (opcode ++ digitFields point segments)

/-- The words of an instruction, on a port of operand width `w`: R81 to R87 for the Commands, R90 for the requests,
with 0 in each field that the operation does not use. DECODEMODE has no request code; its words are those of the one
Command it emits (R134, log 4). -/
def encode (w : Nat) : Instr → Frame
  | .digit0 p g => digitWord 0x01 p g
  | .digit1 p g => digitWord 0x02 p g
  | .digit2 p g => digitWord 0x03 p g
  | .digit3 p g => digitWord 0x04 p g
  | .digit4 p g => digitWord 0x05 p g
  | .digit5 p g => digitWord 0x06 p g
  | .digit6 p g => digitWord 0x07 p g
  | .digit7 p g => digitWord 0x08 p g
  | .decode => .command 0x0900
  | .intensity l => .command (0x0A#8 ++ nibbleData l)
  | .scanLimit l => .command (0x0B#8 ++ nibbleData l)
  | .shutdownCmd n => .command (0x0C#8 ++ bitData n)
  | .displayTestCmd t => .command (0x0F#8 ++ bitData t)
  | .construct cs numDigits => .request w 0x0 false (intOperand w numDigits) (identifierOperand w cs)
  | .setIntensity level => .request w 0x1 false (intOperand w level) 0
  | .setScanLimit limit => .request w 0x2 false (intOperand w limit) 0
  | .shutdown enable => .request w 0x3 enable 0 0
  | .displayTest enable => .request w 0x4 enable 0 0
  | .clearDigit index => .request w 0x5 false (intOperand w index) 0
  | .setDigit index value dp => .request w 0x6 dp (intOperand w index) (intOperand w value)
  | .setChar index ascii dp => .request w 0x7 dp (intOperand w index) (intOperand w ascii)
  | .displayNumber value lz => .request w 0x8 lz (intOperand w value) 0
  | .displayTime hour minute => .request w 0x9 false (intOperand w hour) (intOperand w minute)
  | .displayMinutes total => .request w 0xA false (intOperand w total) 0
  | .digitPattern value => .request w 0xB false (intOperand w value) 0
  | .charPattern code => .request w 0xC false (intOperand w code) 0
  | .decodeMode => .command 0x0900

/-! ## Packed forms

A Command's two bytes are the spec's (R54, R57). The packing of a request in bytes is the model's own, since the
spec gives the port's fields and no packing (log 2): bits 3:0 `req_op`, bit 4 `req_flag`, bits 7:5 ignored, then the
`w` bits of `req_a` and the `w` bits of `req_b`, the low byte first. -/

/-- A request packed in one number, bit 0 the least significant bit of `req_op`. -/
def requestOfNat (w n : Nat) : Frame :=
  .request w (BitVec.ofNat 4 n) (n.testBit 4) (BitVec.ofNat w (n >>> 8)) (BitVec.ofNat w (n >>> (8 + w)))

/-- How many bytes a packed request takes: nine for `w = 32`. -/
def requestBytes (w : Nat) : Nat := (8 + 2 * w + 7) / 8

/-- Bytes to a number, the first byte lowest. -/
def natOfBytes : List Byte → Nat
  | [] => 0
  | b :: bs => b.toNat + 256 * natOfBytes bs

/-- The frame of a byte sequence: two bytes are a Command, opcode first; else it is a packed request. -/
def frameOfBytes (w : Nat) (bs : List Byte) : Except DecodeError Frame :=
  match bs with
  | [opcode, data] => .ok (.command (opcode ++ data))
  | _ => if bs.length = requestBytes w then .ok (requestOfNat w (natOfBytes bs)) else .error .badLength

/-- The decoder on any bytes. -/
def decodeBytes (w : Nat) (bs : List Byte) : Except DecodeError Instr :=
  match frameOfBytes w bs with
  | .ok f => decodeFrame f
  | .error e => .error e

/-- The frame of a row of spec/opcode_table.json on a port of operand width `w`: a row of 16 bits is a Command word,
a shorter one the low bits of a packed request; bits above `nbits` are 0. -/
def frameOfTableWord (w nbits word : Nat) : Frame :=
  if nbits = 16 then .command (BitVec.ofNat 16 word) else requestOfNat w (word % 2 ^ nbits)

/-- The instruction the decoder reads from a table row's word, at the operand width the spec decides. -/
def decodeTableWord (nbits w : Nat) : Option Instr :=
  match decodeFrame (frameOfTableWord Config.operandWidth nbits w) with
  | .ok i => some i
  | .error _ => none

end Sys2Proof
end

