-- ==== Sys2Proof/Machine/State.lean ====
section
/-! DEFINITION. The state of the block (10_state.md), plain data; the reasons a step stops; the state after
reset. INVENTORY.md lists every field with its rule. -/

namespace Sys2Proof.Machine

open Sys2Proof

/-- Faults: none. "No behaviour of this block is treated as fault: the block has no trap" (R200, R206,
93_implementation_defined.md). The type is empty, so that no step can raise one (log 22). -/
inductive Fault
  deriving DecidableEq, Repr

/-- The inputs to which the spec gives no meaning (R203), each under the spec's own label, and the two ways of the
model's own. All are safe: nothing is proved of a run that contains one. -/
inductive Refusal where
  /-- Raised by no meaning; kept for an arm of `exec` that would have none. Safe. -/
  | notModelled (mnemonic : String)
  /-- DIGITPATTERN with a value outside 0 to 15 (R110). Safe. -/
  | digitpatternValueOutOfRange
  /-- CHARPATTERN, and SETCHAR through it, with a code at or above 48 + CHAR_LEN (R111). Safe. -/
  | charpatternPastTableEnd
  /-- CHARPATTERN, and SETCHAR through it, with a code outside 0 to 127 (R111). Safe. -/
  | charpatternNotAscii
  /-- SETCHAR with an index outside 0 to 7 (R152). Safe. -/
  | setcharIndexOutOfRange
  /-- CLEARDIGIT with an index outside 0 to 7 (R150). Safe. -/
  | cleardigitIndexOutOfRange
  /-- DISPLAYTIME on 4 digits with a minute outside 0 to 59 or an hour above 23 (R172). Safe. -/
  | displaytimeOutsideClockRange
  /-- DISPLAYMINUTES on 4 digits with a negative operand (R173). Safe. -/
  | displayminutesNegative
  /-- CONSTRUCT with a digit count outside 1 to 8 (R231). Safe. -/
  | constructDigitCount
  /-- A request but CONSTRUCT and the two lookups before CONSTRUCT has completed (R237). Safe. -/
  | notConstructed
  /-- A second CONSTRUCT (R231). Safe. -/
  | secondConstruct
  /-- `req_op` 0xD, 0xE or 0xF at the request port, raised by `step` (R90). Safe. -/
  | reservedRequest
  /-- Any operation while a second requester or controller is on the chip-select line (R203, R212). Safe. -/
  | secondOwner
  /-- A Command word that no rule of the spec forms (R86, R88), raised by `step` at a command frame and by the
  meaning of the Command SCANLIMIT for the data 8 without INIT_SCAN_RAW (log 20). Safe. -/
  | commandNeverFormed
  deriving DecidableEq, Repr

/-- The one value of DECODE_MODE (R26). -/
inductive DecodeMode where
  | disabled
  deriving DecidableEq, Repr

/-- What the Command Channel does with the transfers to come (R68, R241): it completes each, or it completes `k`
more and never the one after. It is the environment's, held as plain data; the block cannot read it (log 8). -/
inductive Channel where
  | completes
  | hangsAfter (k : Nat)
  deriving DecidableEq, Repr

/-- The parameters of R6 and the two ROMs (R27, R28). No operation writes any of them (R29). -/
structure Params where
  /-- DIGIT_ROM (R27). -/
  digitRom : Vector Byte 16
  /-- CHAR_ROM, entry `k` the pattern of code `48 + k` (R28). -/
  charRom : List Byte
  /-- INTENSITY_DEFAULT (R6). -/
  intensityDefault : Fin 16
  /-- INIT_SCAN_RAW (R6, R233). -/
  initScanRaw : Bool
  /-- NUM_ZERO_UNITS (R6, R171). -/
  numZeroUnits : ZeroUnits
  /-- W, the operand width of the request port (R6). No rule's result depends on it (R6). -/
  operandWidth : Nat
  deriving DecidableEq, Repr

/-- CHAR_LEN, the number of entries of CHAR_ROM (R28). -/
def Params.charLen (p : Params) : Nat := p.charRom.length

/-- What the spec asks of the parameters: R112 (a) bit 7 of every DIGIT_ROM entry is clear, (b) some segment is
lit; R113 (b) CHAR_LEN is at least 1; R6 W is at least 12. -/
abbrev Params.wf (p : Params) : Prop :=
  (∀ v : Fin 16, (p.digitRom.get v).getLsbD 7 = false ∧ p.digitRom.get v ≠ 0) ∧ 1 ≤ p.charLen ∧ 12 ≤ p.operandWidth

/-- The source's DeviceConfig (R20). `none` is the spec's own "does not exist" of R38, not a missing reset value:
"a model must not let any rule read the element before CONSTRUCT; it must not stand in a zero" (log 6). -/
structure DeviceConfig where
  /-- NUM_DIGITS, 1 to 8 (R21); that it is not 0 is part of the invariant. -/
  numDigits : Option (Fin 9)
  /-- INTENSITY (R22). -/
  intensity : Option (Fin 16)
  /-- SCAN_LIMIT (R23). -/
  scanLimit : Option (Fin 8)
  /-- SHUTDOWN_F (R24). -/
  shutdownF : Option Bool
  /-- TEST_F (R25). -/
  testF : Option Bool
  /-- DECODE_MODE (R26). -/
  decodeMode : Option DecodeMode
  /-- The chip-select identifier named at construction (R230, R53; log 12). -/
  chipSelect : Option Nat
  deriving DecidableEq, Repr

/-- No register exists yet (R38). -/
def DeviceConfig.absent : DeviceConfig := ⟨none, none, none, none, none, none, none⟩

/-- The chip register space as the block has written it: (address, byte) pairs, addresses strictly rising. An
unlisted address is one the block has not written: what the chip holds there is unknown to it (R37), and reads
as `none` (log 10). -/
abbrev Memory := List Host.Cell

/-- The canonical form: addresses strictly rising. -/
abbrev Memory.wf (m : Memory) : Prop := m.Pairwise (fun x y => x.1 < y.1)

structure State where
  params : Params
  dev : DeviceConfig
  /-- CONSTRUCTED (R36). -/
  constructed : Bool
  /-- CMD, the Commands emitted so far, oldest first (R30). -/
  cmd : List Command
  /-- The chip register space (R53). -/
  chip : Memory
  /-- The response transfers made so far, oldest first (R89, `rsp_pattern`; log 11). -/
  rsp : List Byte
  /-- The requests presented and not yet taken, oldest first (R89, R11). -/
  requests : List Frame
  /-- The block is stuck for good inside a request whose transfer never completes (R241). -/
  blocked : Bool
  channel : Channel
  /-- A second requester or controller is on the chip-select line (R212; log 9). -/
  secondOwner : Bool
  /-- How many free values this run has drawn (log 7). -/
  draws : Nat
  deriving DecidableEq, Repr

/-- The machine with its parameters in place and nothing constructed (R38, R235). -/
def State.unconstructed (p : Params) : State where
  params := p
  dev := DeviceConfig.absent
  constructed := false
  cmd := []
  chip := []
  rsp := []
  requests := []
  blocked := false
  channel := .completes
  secondOwner := false
  draws := 0

/-- The parameters of R6 at the values Config leaves open, INIT_SCAN_RAW and W at the spec's
decisions. -/
def Params.ofConfig : Params where
  digitRom := Vector.ofFn fun v => BitVec.ofNat 8 ((Config.digitGlyph v).val + 1)
  charRom := Config.charFirst :: Config.charRest
  intensityDefault := Config.intensityDefault
  initScanRaw := Config.initScanRaw
  numZeroUnits := Config.numZeroUnits
  operandWidth := Config.operandWidth

/-- The state before CONSTRUCT (R38). CONSTRUCT, the block's reset sequence, is itself a request (R231). -/
def State.reset : State := State.unconstructed Params.ofConfig

end Sys2Proof.Machine
end

