-- ==== Sys2Proof/Machine/Ops.lean ====
section
/-! DEFINITION. The primitives of 00_scope.md R10 as operations on the state: the chip register space, Emit,
register writes, the response transfer; the plan of a request and how it is performed. The block takes no
exception (R200, R206), so there is no exception entry and no return: a request is rejected (an empty plan),
refused (an error), or performed. -/

namespace Sys2Proof.Machine

open Sys2Proof

/-! ## The chip register space (20_memory.md R53) -/

/-- The last byte written to an address; `none` where the block has written nothing. No meaning uses it (R67). -/
def Memory.read : Memory → Nat → Option Byte
  | [], _ => none
  | (b, d) :: m, a => if a = b then some d else Memory.read m a

/-- Write one byte, keeping the addresses strictly rising. -/
def Memory.write : Memory → Nat → Byte → Memory
  | [], a, d => [(a, d)]
  | (b, e) :: m, a, d =>
    if a < b then (a, d) :: (b, e) :: m
    else if a = b then (a, d) :: m
    else (b, e) :: Memory.write m a d

/-- The address of a chip register is its opcode byte (R53, R60). -/
def opcodeAddress (op : Opcode) : Nat := (opcodeByte op).toNat

/-- The chip register space after one Command (R53). -/
def Memory.afterCommand (m : Memory) (c : Command) : Memory := m.write (opcodeAddress c.op) c.data

/-! ## The Command Channel (R68, R241) -/

/-- One more transfer: the channel after it, or `none` where it never completes. -/
def Channel.transfer : Channel → Option Channel
  | .completes => some .completes
  | .hangsAfter 0 => none
  | .hangsAfter (k + 1) => some (.hangsAfter k)

/-! ## Primitives -/

/-- One primitive of a request (R10). -/
inductive Action where
  | emit (c : Command)
  | writeNumDigits (n : Fin 9)
  | writeIntensity (level : Fin 16)
  | writeScanLimit (limit : Fin 8)
  /-- SCAN_LIMIT <- any value 0 to 7 (R233): a free value. -/
  | drawScanLimit
  | writeShutdown (engaged : Bool)
  | writeTest (engaged : Bool)
  | writeDecodeMode (mode : DecodeMode)
  /-- The block takes the chip-select identifier (R230). -/
  | writeChipSelect (cs : Nat)
  | writeConstructed
  /-- One response transfer of `rsp_pattern` (R89). -/
  | respond (pattern : Byte)
  deriving DecidableEq, Repr

/-- `Emit(op, d)` (R10, R30, R53): the Command goes to the end of CMD and into the chip register space; or its
transfer never completes and the block is stuck (R68, R241). It has no failing outcome (R215). -/
def State.emit (s : State) (c : Command) : State :=
  match s.channel.transfer with
  | none => { s with blocked := true }
  | some ch => { s with cmd := s.cmd ++ [c], chip := s.chip.afterCommand c, channel := ch }

/-- A write to the device registers. -/
def State.writeDev (s : State) (dev : DeviceConfig) : State := { s with dev := dev }

/-- SCAN_LIMIT takes the next free value (log 7). -/
def State.drawScanLimit (s : State) : State :=
  { s with dev := { s.dev with scanLimit := some (Config.scanLimitDraw s.draws) }, draws := s.draws + 1 }

/-- One response transfer (R89). -/
def State.respond (s : State) (pattern : Byte) : State := { s with rsp := s.rsp ++ [pattern] }

/-- CONSTRUCTED <- true (R36). -/
def State.setConstructed (s : State) : State := { s with constructed := true }

/-- What each primitive does (R10). -/
def act (a : Action) (s : State) : State :=
  match a with
  | .emit c => s.emit c
  | .writeNumDigits n => s.writeDev { s.dev with numDigits := some n }
  | .writeIntensity level => s.writeDev { s.dev with intensity := some level }
  | .writeScanLimit limit => s.writeDev { s.dev with scanLimit := some limit }
  | .drawScanLimit => s.drawScanLimit
  | .writeShutdown engaged => s.writeDev { s.dev with shutdownF := some engaged }
  | .writeTest engaged => s.writeDev { s.dev with testF := some engaged }
  | .writeDecodeMode mode => s.writeDev { s.dev with decodeMode := some mode }
  | .writeChipSelect cs => s.writeDev { s.dev with chipSelect := some cs }
  | .writeConstructed => s.setConstructed
  | .respond pattern => s.respond pattern

/-- The primitives of a request in the written order (R11, R62), up to the first transfer that never completes:
the Commands after it never appear (R241). -/
def perform : List Action → State → State
  | [], s => s
  | a :: as, s => if s.blocked then s else perform as (act a s)

/-! ## Plans

What an operation does, as the primitives its rule performs, or the refusal its rule names. Every test that can
refuse is in the plan, so it comes before the first Emit and the first state write (R205 (f)). -/

abbrev Plan := Except Refusal (List Action)

/-- `nop`: a silent rejection, no primitive at all (R10, R201). -/
def Plan.nop : Plan := .ok []

/-- One operation after another, inline (R10 `do`, R94). -/
def Plan.andThen (p q : Plan) : Plan :=
  match p, q with
  | .error r, _ => .error r
  | .ok _, .error r => .error r
  | .ok as, .ok bs => .ok (as ++ bs)

/-- The outcome of a plan: its primitives performed, or the refusal. -/
def runPlan (p : Plan) (s : State) : Host.Outcome State Fault Refusal :=
  match p with
  | .ok as => .next (perform as s)
  | .error r => .refused r

/-- An operation that needs no construction: only the single-owner rule comes before its own tests (R205 (e),
R212). -/
def ownedBy (p : Plan) (s : State) : Host.Outcome State Fault Refusal :=
  if s.secondOwner then .refused .secondOwner else runPlan p s

/-- An operation of the constructed controller: `second_owner` and `not_constructed` come before its own tests
(R205 (e), R237). -/
def onController (p : Plan) (s : State) : Host.Outcome State Fault Refusal :=
  if s.secondOwner then .refused .secondOwner
  else if s.constructed then runPlan p s
  else .refused .notConstructed

/-- The plan of an operation that reads NUM_DIGITS. Where that register does not exist no rule may read it (R38),
and the request is refused; CONSTRUCTED rules this out in every state a run reaches (log 21). -/
def withDigitCount (s : State) (f : Fin 9 → Plan) : Plan :=
  match s.dev.numDigits with
  | some n => f n
  | none => .error .notConstructed

/-- Loss of power (R235): nothing survives but the parameters, which are the hardware's. No request causes it. The
model's own counter of free values goes on, so that a construction after it draws SCAN_LIMIT anew: whether that value
is a new one the spec leaves open (R233), and this is the MODEL'S CHOICE (DESIGN CHOICE, log 27). -/
def State.powerCycle (s : State) : State := { State.unconstructed s.params with draws := s.draws }

end Sys2Proof.Machine
end

