-- ==== Sys2Proof/Machine/Operands.lean ====
section
/-! DEFINITION. Operand checks and data-byte assembly (30_encoding.md R82, R83, R86), and the decimal arithmetic
of 43_macro_ops.md R171, R175. -/

namespace Sys2Proof.Machine

open Sys2Proof

/-- The range check `0 <= v and v <= n - 1` of R130, R131, R150 to R152: the operand as a register can hold it,
or `none`. It neither clamps nor masks. -/
def inRange? (n : Nat) (v : Int) : Option (Fin n) :=
  if h : 0 ≤ v ∧ v < n then some ⟨v.toNat, by omega⟩ else none

/-- The legal digit counts of CONSTRUCT, 1 to 8 (R231). -/
def digitCount? (v : Int) : Option (Fin 9) :=
  if h : 1 ≤ v ∧ v ≤ 8 then some ⟨v.toNat, by omega⟩ else none

/-- A digit-write data byte: the pattern with the decimal point ORed into bit 7 (R83). -/
def digitData (pattern : Byte) (decimalPoint : Bool) : Byte :=
  pattern ||| (if decimalPoint then 0x80 else 0x00)

/-- The blank pattern (00_scope.md glossary, R114). -/
def blankPattern : Byte := 0x00

/-- An intensity or scan-limit data byte: the integer unchanged (R86). -/
def rawData (v : Nat) : Byte := BitVec.ofNat 8 v

/-- The Command that writes one digit position (R82, R83). -/
def digitCommand (position : Fin 8) (pattern : Byte) (decimalPoint : Bool) : Command :=
  ⟨.digit position, digitData pattern decimalPoint⟩

/-- How many decimal digits `v` has, at least 1, counted up to `fuel` (R171). -/
def decimalLength : Nat → Nat → Nat
  | 0, _ => 0
  | fuel + 1, v => if v < 10 then 1 else decimalLength fuel (v / 10) + 1

/-- `SigDigits(v)` of R171 for the numbers DISPLAYNUMBER shows, which have at most 8 digits (R175 (b)). -/
def sigDigits (units : ZeroUnits) (v : Nat) : Nat :=
  if v = 0 then
    match units with
    | .digit => 1
    | .blank => 0
  else decimalLength 8 v

/-- The value DISPLAYNUMBER shows on `n` digits: zero in place of a negative or too large one (R170, R202). -/
def shownValue (n : Nat) (value : Int) : Nat :=
  if value < 0 ∨ value ≥ (10 ^ n : Nat) then 0 else value.toNat

end Sys2Proof.Machine
end

