-- ==== Sys2Proof/Machine/Flags.lean ====
section
/-! DEFINITION. The block has no flags and no condition codes (10_state.md R33). What it has are the two mode
flags, which no rule branches on; here is how each is put on the wire. -/

namespace Sys2Proof.Machine

open Sys2Proof

/-- SHUTDOWN's data byte: the inverse of the operand (R84). -/
def shutdownData (enable : Bool) : Byte := if enable then 0x00 else 0x01

/-- DISPLAYTEST's data byte: the operand itself (R85). -/
def testData (enable : Bool) : Byte := if enable then 0x01 else 0x00

end Sys2Proof.Machine
end

