-- ==== Sys2Proof/Machine/Glyph.lean ====
section
/-! DEFINITION. The lookups of the glyph ROMs, pure functions of the tables (40_glyph_rom.md R110 to R115). -/

namespace Sys2Proof.Machine

open Sys2Proof

/-- DIGITPATTERN (R110): no clamp, no wrap, no blank outside 0 to 15. -/
def digitPattern (rom : Vector Byte 16) (value : Int) : Except Refusal Byte :=
  match inRange? 16 value with
  | some v => .ok (rom.get v)
  | none => .error .digitpatternValueOutOfRange

/-- CHARPATTERN (R111): takes the full ASCII code and subtracts 48 once (conflict C1). -/
def charPattern (rom : List Byte) (code : Int) : Except Refusal Byte :=
  if code < 0 ∨ code > 127 then .error .charpatternNotAscii
  else if code < 48 then .ok blankPattern
  else
    match rom[(code - 48).toNat]? with
    | some pattern => .ok pattern
    | none => .error .charpatternPastTableEnd

/-- A lookup's plan: one response transfer, no Command, no register (R89, R110, R111). -/
def planLookup (r : Except Refusal Byte) : Plan :=
  match r with
  | .ok pattern => .ok [.respond pattern]
  | .error e => .error e

/-- R110. It does not need construction (R36). -/
def execDigitPattern (value : Int) (s : State) : Host.Outcome State Fault Refusal :=
  ownedBy (planLookup (digitPattern s.params.digitRom value)) s

/-- R111. It does not need construction (R36). -/
def execCharPattern (code : Int) (s : State) : Host.Outcome State Fault Refusal :=
  ownedBy (planLookup (charPattern s.params.charRom code)) s

end Sys2Proof.Machine
end

