-- ==== Sys2Proof/Machine/Configure.lean ====
section
/-! DEFINITION. The configuration operations (41_config_ops.md R130 to R135). -/

namespace Sys2Proof.Machine

open Sys2Proof

/-- SETINTENSITY (R130): out of range does nothing, silently. -/
def planSetIntensity (level : Int) : Plan :=
  match inRange? 16 level with
  | some l => .ok [.writeIntensity l, .emit ⟨.intensity, rawData l⟩]
  | none => Plan.nop

/-- SETSCANLIMIT (R131): checked against 0 to 7, never against NUM_DIGITS (R135). -/
def planSetScanLimit (limit : Int) : Plan :=
  match inRange? 8 limit with
  | some l => .ok [.writeScanLimit l, .emit ⟨.scanLimit, rawData l⟩]
  | none => Plan.nop

/-- SHUTDOWN (R132): always transmitted. -/
def planShutdown (enable : Bool) : Plan :=
  .ok [.writeShutdown enable, .emit ⟨.shutdown, shutdownData enable⟩]

/-- DISPLAYTEST (R133): always transmitted. -/
def planDisplayTest (enable : Bool) : Plan :=
  .ok [.writeTest enable, .emit ⟨.displayTest, testData enable⟩]

/-- DECODEMODE (R134): the data byte 0x00 is R87's, from general knowledge (log 13). -/
def planDecodeMode : Plan :=
  .ok [.writeDecodeMode .disabled, .emit ⟨.decodeMode, 0x00⟩]

def execSetIntensity (level : Int) (s : State) : Host.Outcome State Fault Refusal :=
  onController (planSetIntensity level) s

def execSetScanLimit (limit : Int) (s : State) : Host.Outcome State Fault Refusal :=
  onController (planSetScanLimit limit) s

def execShutdown (enable : Bool) (s : State) : Host.Outcome State Fault Refusal :=
  onController (planShutdown enable) s

def execDisplayTest (enable : Bool) (s : State) : Host.Outcome State Fault Refusal :=
  onController (planDisplayTest enable) s

/-- R134, by itself. It is no request: no frame decodes to it, and CONSTRUCT alone performs it (log 4). -/
def execDecodeMode (s : State) : Host.Outcome State Fault Refusal :=
  ownedBy planDecodeMode s

end Sys2Proof.Machine
end

