-- ==== Sys2Proof/Machine/Digit.lean ====
section
/-! DEFINITION. The digit operations (42_digit_ops.md R150 to R154): none reads or writes a register. -/

namespace Sys2Proof.Machine

open Sys2Proof

/-- The plan that writes one looked-up pattern to a position, or the lookup's refusal. -/
def planDigitWrite (position : Fin 8) (pattern : Except Refusal Byte) (decimalPoint : Bool) : Plan :=
  match pattern with
  | .ok g => .ok [.emit (digitCommand position g decimalPoint)]
  | .error r => .error r

/-- CLEARDIGIT (R150): the blank pattern, the decimal point cleared too. -/
def planClearDigit (index : Int) : Plan :=
  match inRange? 8 index with
  | some i => planDigitWrite i (.ok blankPattern) false
  | none => .error .cleardigitIndexOutOfRange

/-- SETDIGIT (R151): both range checks before the lookup and the Emit; either failing does nothing, silently. -/
def planSetDigit (p : Params) (index value : Int) (decimalPoint : Bool) : Plan :=
  match inRange? 8 index, inRange? 16 value with
  | some i, some _ => planDigitWrite i (digitPattern p.digitRom value) decimalPoint
  | _, _ => Plan.nop

/-- The pattern SETCHAR shows: blank at or below 32 by its own test, else CHARPATTERN's (R152). -/
def setCharPattern (p : Params) (asciiValue : Int) : Except Refusal Byte :=
  if asciiValue ≤ 32 then .ok blankPattern else charPattern p.charRom asciiValue

/-- SETCHAR (R152): the index is tested before the character (R205 (d)). -/
def planSetChar (p : Params) (index asciiValue : Int) (decimalPoint : Bool) : Plan :=
  match inRange? 8 index with
  | some i => planDigitWrite i (setCharPattern p asciiValue) decimalPoint
  | none => .error .setcharIndexOutOfRange

def execClearDigit (index : Int) (s : State) : Host.Outcome State Fault Refusal :=
  onController (planClearDigit index) s

def execSetDigit (index value : Int) (decimalPoint : Bool) (s : State) : Host.Outcome State Fault Refusal :=
  onController (planSetDigit s.params index value decimalPoint) s

def execSetChar (index asciiValue : Int) (decimalPoint : Bool) (s : State) : Host.Outcome State Fault Refusal :=
  onController (planSetChar s.params index asciiValue decimalPoint) s

end Sys2Proof.Machine
end

