-- ==== Sys2Proof/Machine/Macro.lean ====
section
/-! DEFINITION. The multi-command operations (43_macro_ops.md R170 to R176), each the sequence of the single-digit
operations its rule names (R94). -/

namespace Sys2Proof.Machine

open Sys2Proof

/-- The loop of R170 from position `i` on, `remaining` positions to go: `v` is what is left of the number, `k`
its SigDigits. -/
def numberLoop (p : Params) (leadingZeros : Bool) (k : Nat) : Nat → Nat → Nat → Plan
  | 0, _, _ => Plan.nop
  | remaining + 1, i, v =>
    Plan.andThen
      (if leadingZeros || decide (i < k) then planSetDigit p i ((v % 10 : Nat) : Int) false else planClearDigit i)
      (numberLoop p leadingZeros k remaining (i + 1) (v / 10))

/-- DISPLAYNUMBER on `n` digits (R170). -/
def planDisplayNumber (p : Params) (n : Fin 9) (value : Int) (leadingZeros : Bool) : Plan :=
  let v0 := shownValue n value
  numberLoop p leadingZeros (sigDigits p.numZeroUnits v0) n 0 v0

/-- The hour's pair of R172: blank where the hour is negative. -/
def planHour (p : Params) (hour : Int) : Plan :=
  if hour < 0 then Plan.andThen (planClearDigit 2) (planClearDigit 3)
  else Plan.andThen (planSetDigit p 2 (hour % 10) false) (planSetDigit p 3 (hour / 10) false)

/-- DISPLAYTIME on `n` digits (R172): the digit count is tested first; ones digit at the lower position of each
pair (conflict C3). -/
def planDisplayTime (p : Params) (n : Fin 9) (hour minute : Int) : Plan :=
  if n ≠ 4 then Plan.nop
  else if minute < 0 ∨ minute > 59 ∨ hour > 23 then .error .displaytimeOutsideClockRange
  else
    Plan.andThen
      (Plan.andThen (planSetDigit p 0 (minute % 10) false) (planSetDigit p 1 (minute / 10) false))
      (planHour p hour)

/-- DISPLAYMINUTES on `n` digits (R173): modulo 1440, split into hour and minute. -/
def planDisplayMinutes (p : Params) (n : Fin 9) (totalMinutes : Int) : Plan :=
  if n ≠ 4 then Plan.nop
  else if totalMinutes < 0 then .error .displayminutesNegative
  else planDisplayTime p n (totalMinutes % 1440 / 60) (totalMinutes % 1440 % 60)

def execDisplayNumber (value : Int) (leadingZeros : Bool) (s : State) : Host.Outcome State Fault Refusal :=
  onController (withDigitCount s fun n => planDisplayNumber s.params n value leadingZeros) s

def execDisplayTime (hour minute : Int) (s : State) : Host.Outcome State Fault Refusal :=
  onController (withDigitCount s fun n => planDisplayTime s.params n hour minute) s

def execDisplayMinutes (totalMinutes : Int) (s : State) : Host.Outcome State Fault Refusal :=
  onController (withDigitCount s fun n => planDisplayMinutes s.params n totalMinutes) s

end Sys2Proof.Machine
end

