-- ==== Sys2Proof/Machine/Construct.lean ====
section
/-! DEFINITION. CONSTRUCT, the block's reset sequence (70_reset_and_hazards.md R230 to R237). -/

namespace Sys2Proof.Machine

open Sys2Proof

/-- `InitScanLimit`, step 4 (R233): through SETSCANLIMIT for 1 to 7 digits; for 8 digits SCAN_LIMIT is a free
value, and the Command (0x0B, 0x08) goes out only under INIT_SCAN_RAW (conflict C2). -/
def planInitScanLimit (p : Params) (numDigits : Fin 9) : Plan :=
  if numDigits ≤ 7 then planSetScanLimit numDigits.val
  else if p.initScanRaw then .ok [.emit ⟨.scanLimit, 0x08⟩, .drawScanLimit]
  else .ok [.drawScanLimit]

/-- The steps of R231 for a legal digit count, in the order R232 requires. -/
def constructSteps (p : Params) (cs : Nat) (numDigits : Fin 9) : Plan :=
  Plan.andThen (.ok [.writeChipSelect cs, .writeNumDigits numDigits])
    (Plan.andThen (planShutdown false)
      (Plan.andThen (planDisplayTest false)
        (Plan.andThen (planSetIntensity p.intensityDefault.val)
          (Plan.andThen (planInitScanLimit p numDigits)
            (Plan.andThen planDecodeMode (.ok [.writeConstructed]))))))

/-- CONSTRUCT (R231): the second-construct test comes before the digit count's. -/
def planConstruct (p : Params) (constructed : Bool) (cs : Nat) (numDigits : Int) : Plan :=
  if constructed then .error .secondConstruct
  else
    match digitCount? numDigits with
    | some n => constructSteps p cs n
    | none => .error .constructDigitCount

def execConstruct (cs : Nat) (numDigits : Int) (s : State) : Host.Outcome State Fault Refusal :=
  ownedBy (planConstruct s.params s.constructed cs numDigits) s

end Sys2Proof.Machine
end

