-- ==== Sys2Proof/Machine/Emit.lean ====
section
/-! DEFINITION. The 13 Commands of 30_encoding.md R81 as instructions: each is one Emit of itself (R10, R80), with
the fields of R83 to R87. None writes a register of the block: that is the emitting operation's part (log 3). -/

namespace Sys2Proof.Machine

open Sys2Proof

/-- The plan of one Command by itself. -/
def planEmit (c : Command) : Plan := .ok [.emit c]

/-- Emit of a digit-write Command with its two fields (R83). -/
def emitDigit (position : Fin 8) (point : Bool) (segments : BitVec 7) (s : State) :
    Host.Outcome State Fault Refusal :=
  ownedBy (planEmit ⟨.digit position, digitFields point segments⟩) s

def execDigit0 (point : Bool) (segments : BitVec 7) (s : State) : Host.Outcome State Fault Refusal :=
  emitDigit 0 point segments s

def execDigit1 (point : Bool) (segments : BitVec 7) (s : State) : Host.Outcome State Fault Refusal :=
  emitDigit 1 point segments s

def execDigit2 (point : Bool) (segments : BitVec 7) (s : State) : Host.Outcome State Fault Refusal :=
  emitDigit 2 point segments s

def execDigit3 (point : Bool) (segments : BitVec 7) (s : State) : Host.Outcome State Fault Refusal :=
  emitDigit 3 point segments s

def execDigit4 (point : Bool) (segments : BitVec 7) (s : State) : Host.Outcome State Fault Refusal :=
  emitDigit 4 point segments s

def execDigit5 (point : Bool) (segments : BitVec 7) (s : State) : Host.Outcome State Fault Refusal :=
  emitDigit 5 point segments s

def execDigit6 (point : Bool) (segments : BitVec 7) (s : State) : Host.Outcome State Fault Refusal :=
  emitDigit 6 point segments s

def execDigit7 (point : Bool) (segments : BitVec 7) (s : State) : Host.Outcome State Fault Refusal :=
  emitDigit 7 point segments s

/-- The Command DECODE (R87). -/
def execDecode (s : State) : Host.Outcome State Fault Refusal :=
  ownedBy (planEmit ⟨.decodeMode, 0x00⟩) s

/-- The Command INTENSITY (R86). -/
def execIntensity (level : BitVec 4) (s : State) : Host.Outcome State Fault Refusal :=
  ownedBy (planEmit ⟨.intensity, nibbleData level⟩) s

/-- The scan-limit data that some rule forms: 0 to 7, and 8 only under INIT_SCAN_RAW (R86, R233). -/
def planScanLimitCommand (p : Params) (limit : BitVec 4) : Plan :=
  if limit.toNat ≤ 7 ∨ (limit.toNat = 8 ∧ p.initScanRaw = true) then planEmit ⟨.scanLimit, nibbleData limit⟩
  else .error .commandNeverFormed

/-- The Command SCANLIMIT (R86; log 20). -/
def execScanLimit (limit : BitVec 4) (s : State) : Host.Outcome State Fault Refusal :=
  ownedBy (planScanLimitCommand s.params limit) s

/-- The Command SHUTDOWN (R84). -/
def execShutdownCmd (normal : Bool) (s : State) : Host.Outcome State Fault Refusal :=
  ownedBy (planEmit ⟨.shutdown, bitData normal⟩) s

/-- The Command DISPLAYTEST (R85). -/
def execDisplayTestCmd (test : Bool) (s : State) : Host.Outcome State Fault Refusal :=
  ownedBy (planEmit ⟨.displayTest, bitData test⟩) s

end Sys2Proof.Machine
end

