-- ==== Sys2Proof/Machine/Dispatch.lean ====
section
/-! DEFINITION. One arm per instruction, each one direct call of its meaning. -/

namespace Sys2Proof.Machine

open Sys2Proof

def exec (i : Instr) (s : State) : Host.Outcome State Fault Refusal :=
  match i with
  -- the Commands (format CMD)
  | .digit0 point segments => Sys2Proof.Machine.execDigit0 point segments s
  | .digit1 point segments => Sys2Proof.Machine.execDigit1 point segments s
  | .digit2 point segments => Sys2Proof.Machine.execDigit2 point segments s
  | .digit3 point segments => Sys2Proof.Machine.execDigit3 point segments s
  | .digit4 point segments => Sys2Proof.Machine.execDigit4 point segments s
  | .digit5 point segments => Sys2Proof.Machine.execDigit5 point segments s
  | .digit6 point segments => Sys2Proof.Machine.execDigit6 point segments s
  | .digit7 point segments => Sys2Proof.Machine.execDigit7 point segments s
  | .decode => Sys2Proof.Machine.execDecode s
  | .intensity level => Sys2Proof.Machine.execIntensity level s
  | .scanLimit limit => Sys2Proof.Machine.execScanLimit limit s
  | .shutdownCmd normal => Sys2Proof.Machine.execShutdownCmd normal s
  | .displayTestCmd test => Sys2Proof.Machine.execDisplayTestCmd test s
  -- the requests (format REQ)
  | .construct cs numDigits => Sys2Proof.Machine.execConstruct cs numDigits s
  | .setIntensity level => Sys2Proof.Machine.execSetIntensity level s
  | .setScanLimit limit => Sys2Proof.Machine.execSetScanLimit limit s
  | .shutdown enable => Sys2Proof.Machine.execShutdown enable s
  | .displayTest enable => Sys2Proof.Machine.execDisplayTest enable s
  | .clearDigit index => Sys2Proof.Machine.execClearDigit index s
  | .setDigit index value decimalPoint => Sys2Proof.Machine.execSetDigit index value decimalPoint s
  | .setChar index asciiValue decimalPoint => Sys2Proof.Machine.execSetChar index asciiValue decimalPoint s
  | .displayNumber value leadingZeros => Sys2Proof.Machine.execDisplayNumber value leadingZeros s
  | .displayTime hour minute => Sys2Proof.Machine.execDisplayTime hour minute s
  | .displayMinutes totalMinutes => Sys2Proof.Machine.execDisplayMinutes totalMinutes s
  | .digitPattern value => Sys2Proof.Machine.execDigitPattern value s
  | .charPattern code => Sys2Proof.Machine.execCharPattern code s
  -- the internal operation (format INTERNAL)
  | .decodeMode => Sys2Proof.Machine.execDecodeMode s

end Sys2Proof.Machine
end

