-- ==== Sys2Proof/Machine/Fetch.lean ====
section
/-! DEFINITION. Taking a request from the port (30_encoding.md R89), and what becomes of a frame that names no
instruction. Step.lean only calls these. -/

namespace Sys2Proof.Machine

open Sys2Proof

/-- The request at the head of the port is taken, the others stay (R11, R89). -/
def State.takeFrame (s : State) (rest : List Frame) : State := { s with requests := rest }

/-- A request presented before those that already wait. -/
def State.present (s : State) (f : Frame) : State := { s with requests := f :: s.requests }

/-- The refusal of a frame that decodes to nothing: a reserved request code (R90), or a Command no rule forms
(R88; log 20). -/
def refusalOfDecode : DecodeError → Refusal
  | .reservedRequest => .reservedRequest
  | .unknownOpcode => .commandNeverFormed
  | .dataNeverFormed => .commandNeverFormed
  | .badLength => .commandNeverFormed

/-- One frame taken and performed (R11, R89). A reserved request code before CONSTRUCT meets two reasons of R203, and
R205 (e) orders `not_constructed` only before an operation's own tests, which a code that names no operation does not
have: that it is refused with `reserved_request` there is the MODEL'S CHOICE (DESIGN CHOICE, log 28). -/
def runFrame (f : Frame) (s : State) : Host.Outcome State Fault Refusal :=
  match decodeFrame f with
  | .ok i => exec i s
  | .error e => if s.secondOwner then .refused .secondOwner else .refused (refusalOfDecode e)

end Sys2Proof.Machine
end

