-- ==== Sys2Proof/Machine/Step.lean ====
section
/-! DEFINITION. One step of the block: one whole request (00_scope.md R5, R11). -/

namespace Sys2Proof.Machine

open Sys2Proof

/-- A block that is stuck stays stuck and takes no request (R241). With no request presented it stays idle
(log 19). Otherwise it takes the oldest request and performs it from start to end (R11). -/
def step (s : State) : Host.Outcome State Fault Refusal :=
  if s.blocked then .next s
  else
    match s.requests with
    | [] => .next s
    | f :: rest => runFrame f (s.takeFrame rest)

/-- The table row's word presented as the next request, on the port as wide as the state has it (log 23). -/
def State.withFetchWord (s : State) (nbits w : Nat) : State :=
  s.present (frameOfTableWord s.params.operandWidth nbits w)

end Sys2Proof.Machine
end

