-- ==== Sys2Proof/Safety.lean ====
section
/-! DEFINITION. The terms in which claims about the block are stated: what a transfer needs, the state a list of
Commands leaves, what a legal Command is, the invariants, and running instructions one after the other. No
meaning uses any of them. -/

namespace Sys2Proof.Machine

open Sys2Proof

/-- The block is not stuck and the channel completes at least `k` more transfers (R68, R241). With the channel
`completes` this is the named fairness assumption of decision D21. -/
def State.CanTransfer (s : State) (k : Nat) : Prop :=
  s.blocked = false ∧ ∀ m, s.channel = .hangsAfter m → k ≤ m

/-- A request of the controller is taken up: one owner (R212), construction completed (R237). -/
def State.Accepts (s : State) : Prop :=
  s.secondOwner = false ∧ s.constructed = true

/-- The channel after `k` completed transfers. -/
def Channel.after (ch : Channel) (k : Nat) : Channel :=
  match ch with
  | .completes => .completes
  | .hangsAfter m => .hangsAfter (m - k)

/-- `s` after exactly the Commands `cs`, in this order, and nothing else (R30, R53, R62). -/
def State.afterCommands (s : State) (cs : List Command) : State :=
  { s with
    cmd := s.cmd ++ cs
    chip := cs.foldl Memory.afterCommand s.chip
    channel := s.channel.after cs.length }

/-- The Command of one data byte for a chip register, `{opcode, data}` with the opcode of the register. -/
def digitAt (position : Nat) (data : Byte) : Command := ⟨.digit (Fin.ofNat 8 position), data⟩

/-- The glyph of a digit value, `DIGIT_ROM[v]` (R51). -/
def Params.glyph (p : Params) (v : Nat) : Byte := p.digitRom.get (Fin.ofNat 16 v)

/-- The Command that DISPLAYNUMBER sends to position `i` for the number `v0`: its decimal digit there, or the
blank beyond the most significant nonzero digit with leading zeros off (R170, R171, R175 (a)). -/
def numberCommand (p : Params) (leadingZeros : Bool) (v0 i : Nat) : Command :=
  if leadingZeros = true ∨ 10 ^ i ≤ v0 ∨ (v0 = 0 ∧ i = 0 ∧ p.numZeroUnits = .digit)
  then digitAt i (p.glyph (v0 / 10 ^ i % 10))
  else digitAt i 0x00

/-- The data bytes the rules form for each opcode (R84 to R87; 95_test_vectors.md part 5). -/
def commandLegal (p : Params) (c : Command) : Bool :=
  match c.op with
  | .digit _ => true
  | .decodeMode => decide (c.data = 0x00)
  | .intensity => decide (c.data.toNat ≤ 15)
  | .scanLimit => decide (c.data.toNat ≤ 7) || (decide (c.data.toNat = 8) && p.initScanRaw)
  | .shutdown => decide (c.data.toNat ≤ 1)
  | .displayTest => decide (c.data.toNat ≤ 1)

/-- The data of the last Command with this opcode: the final content of that chip register as far as this block
wrote it (R37, R174). -/
def lastSent (cmd : List Command) (op : Opcode) : Option Byte :=
  (cmd.reverse.find? fun c => c.op == op).map (·.data)

/-- How many Commands with this opcode were sent. -/
def timesSent (cmd : List Command) (op : Opcode) : Nat :=
  (cmd.filter fun c => c.op == op).length

/-- The frame came over a request port of operand width `w` (R89). -/
def isRequestFrame (w : Nat) : Frame → Bool
  | .request v _ _ _ _ => decide (v = w)
  | .command _ => false

/-- What holds of the block whatever stands at its input. -/
structure State.Inv (s : State) : Prop where
  /-- R112, R113 (b), R6. -/
  paramsOk : s.params.wf
  /-- The chip register space is in its canonical form. -/
  chipCanonical : s.chip.wf
  /-- Each chip register holds what the last Command to it carried (R53). -/
  chipHoldsLast : ∀ op, s.chip.read (opcodeAddress op) = lastSent s.cmd op
  /-- Nothing is written outside the 13 registers of R60. -/
  chipOnlyRegisters : ∀ a, s.chip.read a ≠ none → ∃ op, a = opcodeAddress op
  /-- R84 to R87. -/
  commandsLegal : ∀ c ∈ s.cmd, commandLegal s.params c = true
  /-- NUM_DIGITS is 1 to 8 where it exists (R21). -/
  digitCountOk : s.dev.numDigits ≠ some 0
  /-- After CONSTRUCT every register exists (R38, R234). -/
  registersExist : s.constructed = true →
    s.dev.numDigits.isSome ∧ s.dev.intensity.isSome ∧ s.dev.scanLimit.isSome ∧ s.dev.shutdownF.isSome ∧
    s.dev.testF.isSome ∧ s.dev.decodeMode = some .disabled ∧ s.dev.chipSelect.isSome

/-- What holds of a block whose input is the request port alone, which is all a requester has (R89). -/
structure State.Life (s : State) : Prop where
  onlyRequests : ∀ f ∈ s.requests, isRequestFrame s.params.operandWidth f = true
  /-- The one decode-mode Command of the block's life (R26, R134). -/
  decodeOnce : timesSent s.cmd .decodeMode = if s.constructed then 1 else 0
  /-- Nothing is sent before CONSTRUCT (R237). -/
  silentBefore : s.constructed = false → s.blocked = false → s.cmd = []
  /-- Each shadow register holds the value last transmitted for its setting (R35); SCAN_LIMIT is apart only while
  the last limit sent is INIT_SCAN_RAW's 8 (R233). -/
  shadows : s.constructed = true → s.blocked = false →
    lastSent s.cmd .intensity = s.dev.intensity.map (fun l => BitVec.ofNat 8 l.val) ∧
    lastSent s.cmd .shutdown = s.dev.shutdownF.map shutdownData ∧
    lastSent s.cmd .displayTest = s.dev.testF.map testData ∧
    lastSent s.cmd .decodeMode = some 0x00 ∧
    ∀ d, lastSent s.cmd .scanLimit = some d →
      d = 0x08 ∨ s.dev.scanLimit.map (fun l => BitVec.ofNat 8 l.val) = some d

/-- What an instruction leaves alone: everything but the registers of `dev`, the output CMD and the channel's
progress; and every byte of the chip register space outside the addresses it stores to. -/
structure Untouched (s t : State) (stored : Nat → Prop) : Prop where
  params : t.params = s.params
  constructed : t.constructed = s.constructed
  rsp : t.rsp = s.rsp
  requests : t.requests = s.requests
  secondOwner : t.secondOwner = s.secondOwner
  draws : t.draws = s.draws
  memory : ∀ a, ¬ stored a → t.chip.read a = s.chip.read a

/-- Two states that differ at most in what no rule reads: the registers but NUM_DIGITS, the chip register space,
the chip-select identifier, the count of free values (R35, R67), the operand width (R6). -/
structure SameButUnread (s t : State) : Prop where
  params : { s.params with operandWidth := t.params.operandWidth } = t.params
  numDigits : s.dev.numDigits = t.dev.numDigits
  constructed : s.constructed = t.constructed
  cmd : s.cmd = t.cmd
  rsp : s.rsp = t.rsp
  requests : s.requests = t.requests
  blocked : s.blocked = t.blocked
  channel : s.channel = t.channel
  secondOwner : s.secondOwner = t.secondOwner

/-- Two outcomes alike: next states that are, or the same refusal. -/
def SameOutcome : Host.Outcome State Fault Refusal → Host.Outcome State Fault Refusal → Prop
  | .next s, .next t => SameButUnread s t
  | .refused r, .refused q => r = q
  | _, _ => False

/-- Instructions one after the other, stopping at the first that does not complete (R94). -/
def execAll : List Instr → State → Host.Outcome State Fault Refusal
  | [], s => .next s
  | i :: is, s =>
    match exec i s with
    | .next t => execAll is t
    | .fault r => .fault r
    | .refused r => .refused r

end Sys2Proof.Machine
end

