-- ==== Sys2Proof/Certificates/Slice0/Obligations.lean ====
section
/-! DEFINITION. The statements for the provers. `State.Accepts`, `State.CanTransfer`, `State.afterCommands` and the
other terms are in Sys2Proof/Safety.lean. Every statement holds for every value of the parameters of 00_scope.md R6,
which stand in the state, and of the free value of SCAN_LIMIT. -/

open Sys2Proof Sys2Proof.Machine

/-- On a port of any operand width W from 12 on, for every well-formed instruction but the internal DECODEMODE,
decoding its words gives the instruction back with every operand; DECODEMODE, which has no request code, has the
words of the Command DECODE and they decode to DECODE (the model's choice, log 4). Formalises: 30_encoding.md
sections 1 and 2, spec/opcode_table.json, notes/assumptions/4.md. -/
def Obligations.DecodeOfEncodeIsIdentity : Prop :=
  ∀ w : Nat, 12 ≤ w →
    (∀ i : Instr, WellFormed w i = true → i ≠ .decodeMode → decodeFrame (encode w i) = .ok i) ∧
    decodeFrame (encode w .decodeMode) = .ok .decode

/-- If a Command word decodes to an instruction, that instruction encodes to the same word; if a request decodes,
the instruction encodes to a request with the same operation code that decodes to the same instruction. This holds
at every operand width. Formalises: 30_encoding.md sections 1 and 2. -/
def Obligations.EncodeOfDecodeIsTheWord : Prop :=
  ∀ w : Nat,
    (∀ (word : CommandWord) (i : Instr), decodeCommand word = .ok i → encode w i = .command word) ∧
    ∀ (reqOp : ReqOp) (reqFlag : Bool) (reqA reqB : Operand w) (i : Instr),
      decodeRequest reqOp reqFlag reqA reqB = .ok i →
        ∃ (flag : Bool) (a b : Operand w),
          encode w i = .request w reqOp flag a b ∧ decodeRequest reqOp flag a b = .ok i

/-- At every operand width W from 12 on, every instruction the decoder reads from a Command word or from a request
of a port of that width is well-formed there, and none is the internal DECODEMODE. Formalises: 30_encoding.md
sections 1 and 2, 41_config_ops.md (DECODEMODE). -/
def Obligations.DecodedInstructionIsWellFormed : Prop :=
  ∀ (w : Nat) (i : Instr), 12 ≤ w →
    (∀ word : CommandWord, decodeFrame (.command word) = .ok i → WellFormed w i = true ∧ i ≠ .decodeMode) ∧
    ∀ (reqOp : ReqOp) (reqFlag : Bool) (reqA reqB : Operand w),
      decodeFrame (.request w reqOp reqFlag reqA reqB) = .ok i → WellFormed w i = true ∧ i ≠ .decodeMode

/-- A few words written out bit by bit: 0x08C7 is DIGIT7 with the point and segments 0x47, 0x0C01 is SHUTDOWN
normal, 0x0B04 is SCANLIMIT 4, the request 0x6 with flag 1, a = 7, b = 15 is SETDIGIT 7, 15, true, and a =
0xFFFFFFFF on a port of 32 bits is the operand -1, as is 0xFFF on one of 12. Formalises: 30_encoding.md sections 1
and 2, 95_test_vectors.md sections 3.8 and 4. -/
def Obligations.WrittenOutWordsDecode : Prop :=
  decodeFrame (.command 0x08C7) = .ok (.digit7 true 0x47) ∧
  decodeFrame (.command 0x0C01) = .ok (.shutdownCmd true) ∧
  decodeFrame (.command 0x0B04) = .ok (.scanLimit 4) ∧
  decodeFrame (.request 32 0x6 true 7 15) = .ok (.setDigit 7 15 true) ∧
  decodeFrame (.request 32 0x9 false 0xFFFFFFFF 7) = .ok (.displayTime (-1) 7) ∧
  decodeFrame (.request 12 0x9 false 0xFFF 7) = .ok (.displayTime (-1) 7)

/-- Each of the codes 0x0 to 0xC names its operation with the operands of the table, whatever stands in the fields
it does not use; a step that takes a request with code 0xD, 0xE or 0xF is refused with reserved_request. The codes
are the spec's own choice (decision D2, log 2); that a reserved code before CONSTRUCT has this reason is the
model's (log 28). Formalises: 30_encoding.md section 2, 92_eei_decisions.md D2, notes/assumptions/2.md,
notes/assumptions/28.md. -/
def Obligations.RequestCodesAndReservedSpace : Prop :=
  ∀ (w : Nat) (flag : Bool) (a b : Operand w),
    (decodeRequest 0x0 flag a b = .ok (.construct b.toNat a.toInt) ∧
     decodeRequest 0x1 flag a b = .ok (.setIntensity a.toInt) ∧
     decodeRequest 0x2 flag a b = .ok (.setScanLimit a.toInt) ∧
     decodeRequest 0x3 flag a b = .ok (.shutdown flag) ∧
     decodeRequest 0x4 flag a b = .ok (.displayTest flag) ∧
     decodeRequest 0x5 flag a b = .ok (.clearDigit a.toInt) ∧
     decodeRequest 0x6 flag a b = .ok (.setDigit a.toInt b.toInt flag) ∧
     decodeRequest 0x7 flag a b = .ok (.setChar a.toInt b.toInt flag) ∧
     decodeRequest 0x8 flag a b = .ok (.displayNumber a.toInt flag) ∧
     decodeRequest 0x9 flag a b = .ok (.displayTime a.toInt b.toInt) ∧
     decodeRequest 0xA flag a b = .ok (.displayMinutes a.toInt) ∧
     decodeRequest 0xB flag a b = .ok (.digitPattern a.toInt) ∧
     decodeRequest 0xC flag a b = .ok (.charPattern a.toInt)) ∧
    (∀ f : Frame, decodeFrame f ≠ .ok .decodeMode) ∧
    ∀ (reqOp : ReqOp) (s : State) (rest : List Frame), 0xD ≤ reqOp.toNat → s.blocked = false →
      s.secondOwner = false → s.requests = .request w reqOp flag a b :: rest →
      step s = .refused .reservedRequest

/-- The opcode of digit position i is i + 1; a byte is the opcode of some chip register exactly if it is one of
0x01 to 0x0C or 0x0F; two registers have two opcodes. Formalises: R82. -/
def Obligations.OpcodesAreTheClosedSet : Prop :=
  (∀ i : Fin 8, (opcodeByte (.digit i)).toNat = i.val + 1) ∧
  (∀ b : Byte, (∃ op, opcodeByte op = b) ↔ (1 ≤ b.toNat ∧ b.toNat ≤ 0x0C) ∨ b.toNat = 0x0F) ∧
  ∀ p q : Opcode, opcodeByte p = opcodeByte q → p = q

/-- Bit 7 of the data byte is set where the pattern's bit 7 is set or the decimal point is asked for, bits 6 to 0
are the pattern's; a blank with the point is 0x80; under R112's constraint on DIGIT_ROM bit 7 is exactly the
decimal point. Formalises: R83. -/
def Obligations.DigitDataByteAssembly : Prop :=
  (∀ (g : Byte) (dp : Bool), (digitData g dp).getLsbD 7 = (g.getLsbD 7 || dp) ∧
    ∀ k, k < 7 → (digitData g dp).getLsbD k = g.getLsbD k) ∧
  digitData 0x00 true = 0x80 ∧
  (∀ (p : Params) (v : Fin 16) (dp : Bool), p.wf → (digitData (p.digitRom.get v) dp).getLsbD 7 = dp) ∧
  ∀ (p : Bool) (g : BitVec 7), (digitFields p g).getLsbD 7 = p ∧ (digitFields p g).extractLsb' 0 7 = g

/-- The word of every Command whose data some rule forms decodes to an instruction whose meaning is to send exactly
that Command. That a Command word stands at the input and runs by itself is the model's choice (log 3), as is what
becomes of scan-limit data (log 20). That 0x00 is the decode-mode data is from general knowledge (decision D23, log
13). Formalises: 30_encoding.md section 1, notes/assumptions/3.md, notes/assumptions/20.md, 92_eei_decisions.md
D23, notes/assumptions/13.md. -/
def Obligations.LegalCommandReadsBackAndRuns : Prop :=
  ∀ (s : State) (c : Command), commandLegal s.params c = true → s.secondOwner = false → s.CanTransfer 1 →
    ∃ i, decodeFrame (.command (commandWord c)) = .ok i ∧ exec i s = .next (s.afterCommands [c])

/-- Where the block is not stuck and the oldest frame decodes to an instruction, the step is that instruction's
meaning on the state without that frame. Formalises: 00_scope.md section 6, 30_encoding.md section 2. -/
def Obligations.StepRunsTheDecodedInstruction : Prop :=
  ∀ (s : State) (f : Frame) (rest : List Frame) (i : Instr),
    s.blocked = false → s.requests = f :: rest → decodeFrame f = .ok i →
      step s = exec i { s with requests := rest }

/-- Where a table word laid out for the state's operand width decodes to an instruction and the block is not stuck,
the step after presenting it is that instruction's meaning on the state before; at the width the spec decides, that
is the instruction decodeTableWord reads. All of this is the model's choice: presenting a frame (log 23), the
packing of a table word (log 2) and Command words at the input (log 3). Formalises: 30_encoding.md section 2,
notes/assumptions/2.md, notes/assumptions/3.md, notes/assumptions/23.md. -/
def Obligations.PresentedTableWordIsRunNext : Prop :=
  ∀ (s : State) (nbits word : Nat) (i : Instr), s.blocked = false →
    (decodeFrame (frameOfTableWord s.params.operandWidth nbits word) = .ok i →
      step (s.withFetchWord nbits word) = exec i s) ∧
    (s.params.operandWidth = 32 → decodeTableWord nbits word = some i → step (s.withFetchWord nbits word) = exec i s)

/-- A block stuck inside a request stays exactly as it is at every later step; a block with no request presented
stays as it is (the idle step is the model's choice, log 19). That a step of a stuck block answers the same state
is the model's form of R241 (decision D21, log 8). Formalises: 70_reset_and_hazards.md section 3,
notes/assumptions/19.md, 92_eei_decisions.md D21, notes/assumptions/8.md. -/
def Obligations.StuckAndIdleBlockStays : Prop :=
  (∀ s : State, s.blocked = true → step s = .next s) ∧
  (∀ s : State, s.requests = [] → step s = .next s)

/-- With one owner and a channel that completes, each digit-write Command is appended to CMD and written to its
chip register with bit 7 the point and bits 6 to 0 the segments, and nothing else changes. That a Command runs by
itself is the model's choice (log 3). Formalises: 30_encoding.md section 1, notes/assumptions/3.md. -/
def Obligations.DigitCommandsAreSent : Prop :=
  ∀ (s : State) (p : Bool) (g : BitVec 7), s.secondOwner = false → s.CanTransfer 1 →
    (∃ d : Byte, d.getLsbD 7 = p ∧ d.extractLsb' 0 7 = g ∧
      exec (.digit0 p g) s = .next (s.afterCommands [⟨.digit 0, d⟩])) ∧
    (∃ d : Byte, d.getLsbD 7 = p ∧ d.extractLsb' 0 7 = g ∧
      exec (.digit1 p g) s = .next (s.afterCommands [⟨.digit 1, d⟩])) ∧
    (∃ d : Byte, d.getLsbD 7 = p ∧ d.extractLsb' 0 7 = g ∧
      exec (.digit2 p g) s = .next (s.afterCommands [⟨.digit 2, d⟩])) ∧
    (∃ d : Byte, d.getLsbD 7 = p ∧ d.extractLsb' 0 7 = g ∧
      exec (.digit3 p g) s = .next (s.afterCommands [⟨.digit 3, d⟩])) ∧
    (∃ d : Byte, d.getLsbD 7 = p ∧ d.extractLsb' 0 7 = g ∧
      exec (.digit4 p g) s = .next (s.afterCommands [⟨.digit 4, d⟩])) ∧
    (∃ d : Byte, d.getLsbD 7 = p ∧ d.extractLsb' 0 7 = g ∧
      exec (.digit5 p g) s = .next (s.afterCommands [⟨.digit 5, d⟩])) ∧
    (∃ d : Byte, d.getLsbD 7 = p ∧ d.extractLsb' 0 7 = g ∧
      exec (.digit6 p g) s = .next (s.afterCommands [⟨.digit 6, d⟩])) ∧
    (∃ d : Byte, d.getLsbD 7 = p ∧ d.extractLsb' 0 7 = g ∧
      exec (.digit7 p g) s = .next (s.afterCommands [⟨.digit 7, d⟩]))

/-- With one owner and a channel that completes, each configuration Command is sent with the data of its row and
nothing else changes; SCANLIMIT with data 8 is sent only under INIT_SCAN_RAW and refused otherwise, as is data
above 8. That a Command runs by itself, and the refusals, are the model's choice (logs 3, 20). The data 0x00 of
DECODE is from general knowledge (decision D23, log 13). Formalises: 30_encoding.md section 1,
notes/assumptions/3.md, notes/assumptions/20.md, 92_eei_decisions.md D23, notes/assumptions/13.md. -/
def Obligations.ConfigurationCommandsAreSent : Prop :=
  ∀ s : State, s.secondOwner = false → s.CanTransfer 1 →
    exec .decode s = .next (s.afterCommands [⟨.decodeMode, 0x00⟩]) ∧
    (∀ l : BitVec 4, exec (.intensity l) s = .next (s.afterCommands [⟨.intensity, BitVec.ofNat 8 l.toNat⟩])) ∧
    (∀ l : BitVec 4, l.toNat ≤ 7 ∨ (l.toNat = 8 ∧ s.params.initScanRaw = true) →
      exec (.scanLimit l) s = .next (s.afterCommands [⟨.scanLimit, BitVec.ofNat 8 l.toNat⟩])) ∧
    (∀ l : BitVec 4, (8 < l.toNat ∨ (l.toNat = 8 ∧ s.params.initScanRaw = false)) →
      exec (.scanLimit l) s = .refused .commandNeverFormed) ∧
    (∀ n : Bool, exec (.shutdownCmd n) s = .next (s.afterCommands [⟨.shutdown, if n then 0x01 else 0x00⟩])) ∧
    (∀ b : Bool, exec (.displayTestCmd b) s = .next (s.afterCommands [⟨.displayTest, if b then 0x01 else 0x00⟩]))

/-- With one owner and a channel that completes, DECODEMODE writes DECODE_MODE and sends the Command 0x0900, and
changes nothing else. The data byte is from general knowledge (log 13); that it runs by itself, constructed or not,
is the model's choice (log 4). Formalises: 41_config_ops.md (DECODEMODE), notes/assumptions/4.md,
notes/assumptions/13.md. -/
def Obligations.DecodeModeStepIsSent : Prop :=
  ∀ s : State, s.secondOwner = false → s.CanTransfer 1 →
    exec .decodeMode s =
      .next ({ s with dev := { s.dev with decodeMode := some .disabled } }.afterCommands [⟨.decodeMode, 0x00⟩])

/-- Request code 0x1 is SETINTENSITY of the signed operand; on an accepting block with a channel that completes a
level 0 to 15 is stored in INTENSITY and sent raw as (0x0A, level), every other level leaves the state exactly as
it was. Formalises: R130. -/
def Obligations.SetIntensityAcceptsZeroToFifteen : Prop :=
  (∀ (w : Nat) (flag : Bool) (a b : Operand w),
    decodeRequest 0x1 flag a b = .ok (.setIntensity a.toInt)) ∧
  opcodeByte .intensity = 0x0A ∧
  ∀ (s : State) (level : Int), s.Accepts →
    (∀ l : Fin 16, level = (l.val : Int) → s.CanTransfer 1 →
      exec (.setIntensity level) s =
        .next ({ s with dev := { s.dev with intensity := some l } }.afterCommands
          [⟨.intensity, BitVec.ofNat 8 l.val⟩])) ∧
    ((level < 0 ∨ 15 < level) → exec (.setIntensity level) s = .next s)

/-- Request code 0x2 is SETSCANLIMIT of the signed operand; on an accepting block with a channel that completes a
limit 0 to 7 is stored in SCAN_LIMIT and sent raw as (0x0B, limit), whatever NUM_DIGITS is; every other limit
leaves the state exactly as it was. Formalises: R131, R135. -/
def Obligations.SetScanLimitAcceptsZeroToSeven : Prop :=
  (∀ (w : Nat) (flag : Bool) (a b : Operand w),
    decodeRequest 0x2 flag a b = .ok (.setScanLimit a.toInt)) ∧
  opcodeByte .scanLimit = 0x0B ∧
  ∀ (s : State) (limit : Int), s.Accepts →
    (∀ l : Fin 8, limit = (l.val : Int) → s.CanTransfer 1 →
      exec (.setScanLimit limit) s =
        .next ({ s with dev := { s.dev with scanLimit := some l } }.afterCommands
          [⟨.scanLimit, BitVec.ofNat 8 l.val⟩])) ∧
    ((limit < 0 ∨ 7 < limit) → exec (.setScanLimit limit) s = .next s)

/-- Request code 0x3 is SHUTDOWN of the flag; on an accepting block with a channel that completes SHUTDOWN_F takes
the operand and (0x0C, 0x00) is sent for true, (0x0C, 0x01) for false, whatever the flags were. Formalises: R132,
R84. -/
def Obligations.ShutdownIsSentInverted : Prop :=
  (∀ (w : Nat) (flag : Bool) (a b : Operand w),
    decodeRequest 0x3 flag a b = .ok (.shutdown flag)) ∧
  opcodeByte .shutdown = 0x0C ∧
  ∀ (s : State) (enable : Bool), s.Accepts → s.CanTransfer 1 →
    exec (.shutdown enable) s =
      .next ({ s with dev := { s.dev with shutdownF := some enable } }.afterCommands
        [⟨.shutdown, if enable then 0x00 else 0x01⟩])

/-- Request code 0x4 is DISPLAYTEST of the flag; on an accepting block with a channel that completes TEST_F takes
the operand and (0x0F, 0x01) is sent for true, (0x0F, 0x00) for false, whatever the flags were. Formalises: R133,
R85. -/
def Obligations.DisplayTestIsSentDirect : Prop :=
  (∀ (w : Nat) (flag : Bool) (a b : Operand w),
    decodeRequest 0x4 flag a b = .ok (.displayTest flag)) ∧
  opcodeByte .displayTest = 0x0F ∧
  ∀ (s : State) (enable : Bool), s.Accepts → s.CanTransfer 1 →
    exec (.displayTest enable) s =
      .next ({ s with dev := { s.dev with testF := some enable } }.afterCommands
        [⟨.displayTest, if enable then 0x01 else 0x00⟩])

/-- Request code 0x5 is CLEARDIGIT of the signed operand; on an accepting block with a channel that completes an
index 0 to 7 sends (index + 1, 0x00) whatever NUM_DIGITS is and changes no register; any other index is refused.
The refusal is the spec's own choice (decision D10, log 18). Formalises: 42_digit_ops.md (CLEARDIGIT),
92_eei_decisions.md D10, notes/assumptions/18.md. -/
def Obligations.ClearDigitWritesTheBlank : Prop :=
  (∀ (w : Nat) (flag : Bool) (a b : Operand w),
    decodeRequest 0x5 flag a b = .ok (.clearDigit a.toInt)) ∧
  ∀ (s : State) (index : Int), s.Accepts →
    (∀ i : Fin 8, index = (i.val : Int) → s.CanTransfer 1 →
      exec (.clearDigit index) s = .next (s.afterCommands [⟨.digit i, 0x00⟩])) ∧
    ((index < 0 ∨ 7 < index) → exec (.clearDigit index) s = .refused .cleardigitIndexOutOfRange)

/-- Request code 0x6 is SETDIGIT of two signed operands and the flag; on an accepting block with a channel that
completes an index 0 to 7 and a value 0 to 15 send DIGIT_ROM[value] with 0x80 ORed in where the point is asked for,
and change no register; if either is out of range the state stays exactly as it was. Formalises: R151. -/
def Obligations.SetDigitSendsTheGlyph : Prop :=
  (∀ (w : Nat) (flag : Bool) (a b : Operand w),
    decodeRequest 0x6 flag a b = .ok (.setDigit a.toInt b.toInt flag)) ∧
  ∀ (s : State) (index value : Int) (dp : Bool), s.Accepts →
    (∀ (i : Fin 8) (v : Fin 16), index = (i.val : Int) → value = (v.val : Int) → s.CanTransfer 1 →
      exec (.setDigit index value dp) s =
        .next (s.afterCommands [⟨.digit i, s.params.digitRom.get v ||| (if dp then 0x80 else 0x00)⟩])) ∧
    ((index < 0 ∨ 7 < index ∨ value < 0 ∨ 15 < value) → exec (.setDigit index value dp) s = .next s)

/-- Under R112's constraints on DIGIT_ROM every Command that SETDIGIT appends has bits 6 to 0 non-zero and bit 7
equal to the decimal-point operand. Formalises: 42_digit_ops.md (SETDIGIT), 95_test_vectors.md section 5. -/
def Obligations.SetDigitDataIsNeverBlank : Prop :=
  ∀ (s t : State) (index value : Int) (dp : Bool), s.params.wf → exec (.setDigit index value dp) s = .next t →
    ∃ new, t.cmd = s.cmd ++ new ∧ ∀ c ∈ new, c.data.extractLsb' 0 7 ≠ 0 ∧ c.data.getLsbD 7 = dp

/-- Request code 0x7 is SETCHAR of two signed operands and the flag. On an accepting block: an index outside 0 to 7
is refused whatever the character; with an index in range and a channel that completes, a code below 48 (every
negative one too) sends the blank with the point, a code in the table sends CHAR_ROM[code - 48] with the point ORed
in; a code past the table's end or above 127 is refused. The single subtraction of 48 and the refusals are the
spec's own choices (conflict C1, decisions D5, D11, D12, logs 14, 18). Formalises: 42_digit_ops.md (SETCHAR),
92_eei_decisions.md D5, D11, D12, notes/assumptions/14.md, notes/assumptions/18.md. -/
def Obligations.SetCharSendsTheCharacter : Prop :=
  (∀ (w : Nat) (flag : Bool) (a b : Operand w),
    decodeRequest 0x7 flag a b = .ok (.setChar a.toInt b.toInt flag)) ∧
  ∀ (s : State) (index ascii : Int) (dp : Bool), s.Accepts →
    ((index < 0 ∨ 7 < index) → exec (.setChar index ascii dp) s = .refused .setcharIndexOutOfRange) ∧
    ∀ i : Fin 8, index = (i.val : Int) →
      (ascii < 48 → s.CanTransfer 1 →
        exec (.setChar index ascii dp) s = .next (s.afterCommands [⟨.digit i, if dp then 0x80 else 0x00⟩])) ∧
      (∀ (k : Nat) (g : Byte), ascii = 48 + (k : Int) → ascii ≤ 127 → s.params.charRom[k]? = some g →
        s.CanTransfer 1 →
        exec (.setChar index ascii dp) s =
          .next (s.afterCommands [⟨.digit i, g ||| (if dp then 0x80 else 0x00)⟩])) ∧
      ((48 + (s.params.charLen : Int) ≤ ascii ∧ ascii ≤ 127) →
        exec (.setChar index ascii dp) s = .refused .charpatternPastTableEnd) ∧
      (127 < ascii → exec (.setChar index ascii dp) s = .refused .charpatternNotAscii)

/-- For each digit operation and each contents of the two ROMs there is one list of Commands or one refusal that it
answers with in every accepting state with those ROMs (for the Commands, with a channel that completes), whatever
the other parameters are, whatever the registers hold and whatever came before; and no register changes.
Formalises: R154. -/
def Obligations.DigitWritesAreIndependent : Prop :=
  ∀ (digitRom : Vector Byte 16) (charRom : List Byte) (i : Instr),
    ((∃ index, i = .clearDigit index) ∨ (∃ index value dp, i = .setDigit index value dp) ∨
      (∃ index ascii dp, i = .setChar index ascii dp)) →
    (∃ cs : List Command, ∀ s : State, s.params.digitRom = digitRom → s.params.charRom = charRom → s.Accepts →
      s.CanTransfer 1 → exec i s = .next (s.afterCommands cs)) ∨
    (∃ r : Refusal, ∀ s : State, s.params.digitRom = digitRom → s.params.charRom = charRom → s.Accepts →
      exec i s = .refused r)

/-- Request code 0x8 is DISPLAYNUMBER of the signed operand and the flag. On an accepting block of n digits with a
channel that completes it sends exactly n Commands, positions 0 to n - 1 in ascending order: at position i the
glyph of digit (v0 div 10^i) mod 10, without a point, where leading zeros are asked for or position i is within the
number, else the blank; v0 is the value, or 0 where it is negative or at least 10^n; position 0 of the value 0 with
leading zeros off follows NUM_ZERO_UNITS. The order of the Commands and the point being off are the spec's own
choice (decision D13, log 16). Formalises: 43_macro_ops.md section 1 (DISPLAYNUMBER), 92_eei_decisions.md D13, D14,
notes/assumptions/16.md. -/
def Obligations.DisplayNumberShowsTheDecimalDigits : Prop :=
  (∀ (w : Nat) (flag : Bool) (a b : Operand w),
    decodeRequest 0x8 flag a b = .ok (.displayNumber a.toInt flag)) ∧
  ∀ (s : State) (n : Fin 9) (value : Int) (lz : Bool) (v0 : Nat), s.Accepts → s.dev.numDigits = some n →
    s.CanTransfer n.val →
    (((value < 0 ∨ 10 ^ n.val ≤ value) ∧ v0 = 0) ∨ (value = (v0 : Int) ∧ v0 < 10 ^ n.val)) →
    exec (.displayNumber value lz) s =
      .next (s.afterCommands ((List.range n.val).map (numberCommand s.params lz v0)))

/-- On n digits DISPLAYNUMBER of a negative value or of one at or above 10^n does exactly what DISPLAYNUMBER of 0
with the same leadingZeros does, in every state. Formalises: R202. -/
def Obligations.DisplayNumberFallsBackToZero : Prop :=
  ∀ (s : State) (n : Fin 9) (value : Int) (lz : Bool), s.dev.numDigits = some n →
    (value < 0 ∨ 10 ^ n.val ≤ value) →
    exec (.displayNumber value lz) s = exec (.displayNumber 0 lz) s

/-- For 0 < v < 10^8 SigDigits(v) is at least 1, v is below 10 to it, and it is the least such; for v = 0 it is 1
or 0 as NUM_ZERO_UNITS says. Formalises: 43_macro_ops.md section 1 (SigDigits). -/
def Obligations.SigDigitsIsTheLeastLength : Prop :=
  (∀ (u : ZeroUnits) (v : Nat), 0 < v → v < 10 ^ 8 →
    1 ≤ sigDigits u v ∧ v < 10 ^ sigDigits u v ∧ ∀ k, 1 ≤ k → v < 10 ^ k → sigDigits u v ≤ k) ∧
  sigDigits .digit 0 = 1 ∧ sigDigits .blank 0 = 0

/-- For 0 <= v < 10^n with leading zeros on there are n digits, each 0 to 9, whose sum weighted by the powers of
ten is v, and the Commands sent are their glyphs at positions 0 to n - 1, in this order and without a point. The
order and the point being off are the spec's own choice (decision D13, log 16). Formalises: 43_macro_ops.md section
2, 95_test_vectors.md section 5, 92_eei_decisions.md D13, notes/assumptions/16.md. -/
def Obligations.ShownDigitsAddUpToTheNumber : Prop :=
  ∀ (s : State) (n : Fin 9) (v : Nat), s.Accepts → s.dev.numDigits = some n → s.CanTransfer n.val → v < 10 ^ n.val →
    ∃ ds : List Nat, ds.length = n.val ∧ (∀ d ∈ ds, d ≤ 9) ∧ Nat.ofDigits 10 ds = v ∧
      exec (.displayNumber (v : Int) true) s =
        .next (s.afterCommands (ds.zipIdx.map fun x => digitAt x.2 (s.params.glyph x.1)))

/-- If the sixteen glyphs are pairwise different (an added premise, the source does not say it), two numbers below
10^n shown with leading zeros that leave the same state are equal. Formalises: 95_test_vectors.md section 5. -/
def Obligations.ShownNumberIsDeterminedByItsCommands : Prop :=
  ∀ (s t : State) (n : Fin 9) (v w : Nat), s.Accepts → s.dev.numDigits = some n → s.CanTransfer n.val →
    Function.Injective s.params.digitRom.get → v < 10 ^ n.val → w < 10 ^ n.val →
    exec (.displayNumber (v : Int) true) s = .next t → exec (.displayNumber (w : Int) true) s = .next t → v = w

/-- Request code 0x9 is DISPLAYTIME of two signed operands. On an accepting block with a digit count other than 4
the state stays exactly as it was whatever the operands; on 4 digits a minute outside 0 to 59 or an hour above 23
is refused; otherwise, the channel completing, positions 0 and 1 get the ones and tens of the minute and positions
2 and 3 those of the hour, or blanks where the hour is negative, all without a point. The digit order, the point
being off and the refusal are the spec's own choices (conflict C3, decisions D15, D16, logs 15, 18). Formalises:
43_macro_ops.md section 1 (DISPLAYTIME), 92_eei_decisions.md D15, D16, notes/assumptions/15.md,
notes/assumptions/18.md. -/
def Obligations.DisplayTimeShowsTheClock : Prop :=
  (∀ (w : Nat) (flag : Bool) (a b : Operand w),
    decodeRequest 0x9 flag a b = .ok (.displayTime a.toInt b.toInt)) ∧
  ∀ (s : State) (n : Fin 9) (hour minute : Int), s.Accepts → s.dev.numDigits = some n →
    (n ≠ 4 → exec (.displayTime hour minute) s = .next s) ∧
    (n = 4 → (minute < 0 ∨ 59 < minute ∨ 23 < hour) →
      exec (.displayTime hour minute) s = .refused .displaytimeOutsideClockRange) ∧
    (∀ h m : Nat, n = 4 → minute = (m : Int) → m ≤ 59 → hour = (h : Int) → h ≤ 23 → s.CanTransfer 4 →
      exec (.displayTime hour minute) s = .next (s.afterCommands
        [⟨.digit 0, s.params.glyph (m % 10)⟩, ⟨.digit 1, s.params.glyph (m / 10)⟩,
         ⟨.digit 2, s.params.glyph (h % 10)⟩, ⟨.digit 3, s.params.glyph (h / 10)⟩])) ∧
    (∀ m : Nat, n = 4 → minute = (m : Int) → m ≤ 59 → hour < 0 → s.CanTransfer 4 →
      exec (.displayTime hour minute) s = .next (s.afterCommands
        [⟨.digit 0, s.params.glyph (m % 10)⟩, ⟨.digit 1, s.params.glyph (m / 10)⟩,
         ⟨.digit 2, 0x00⟩, ⟨.digit 3, 0x00⟩]))

/-- Request code 0xA is DISPLAYMINUTES of the signed operand. On an accepting block with a digit count other than 4
the state stays exactly as it was; on 4 digits a negative operand is refused, and for any other, r its remainder
modulo 1440, it does exactly what DISPLAYTIME (r div 60), (r mod 60) does, which with a channel that completes
sends the four Commands of that time. The split and the refusal are the spec's own choice (decision D17, logs 17,
18), as are the position of each digit, the order of the four Commands and the point being off (conflict C3,
decision D15, log 15). Formalises: 43_macro_ops.md section 1 (DISPLAYMINUTES), 92_eei_decisions.md D15, D17,
notes/assumptions/15.md, notes/assumptions/17.md, notes/assumptions/18.md. -/
def Obligations.DisplayMinutesWrapsTheDay : Prop :=
  (∀ (w : Nat) (flag : Bool) (a b : Operand w),
    decodeRequest 0xA flag a b = .ok (.displayMinutes a.toInt)) ∧
  ∀ (s : State) (n : Fin 9) (total : Int), s.Accepts → s.dev.numDigits = some n →
    (n ≠ 4 → exec (.displayMinutes total) s = .next s) ∧
    (n = 4 → total < 0 → exec (.displayMinutes total) s = .refused .displayminutesNegative) ∧
    (∀ m : Nat, n = 4 → total = (m : Int) →
      exec (.displayMinutes total) s =
        exec (.displayTime ((m % 1440 / 60 : Nat) : Int) ((m % 1440 % 60 : Nat) : Int)) s ∧
      (s.CanTransfer 4 →
        exec (.displayMinutes total) s = .next (s.afterCommands
          [⟨.digit 0, s.params.glyph (m % 1440 % 60 % 10)⟩, ⟨.digit 1, s.params.glyph (m % 1440 % 60 / 10)⟩,
           ⟨.digit 2, s.params.glyph (m % 1440 / 60 % 10)⟩, ⟨.digit 3, s.params.glyph (m % 1440 / 60 / 10)⟩])))

/-- On an accepting block, even where a transfer never completes: DISPLAYNUMBER is the sequence over positions 0 to
n - 1 of SETDIGIT of the decimal digit or CLEARDIGIT; DISPLAYTIME inside a clock's range on 4 digits is two
SETDIGIT for the minute and two SETDIGIT or two CLEARDIGIT for the hour. The ascending route through these
operations with the point off is the spec's own choice (conflict C3, decisions D13, D15, logs 15, 16); what a hung
transfer leaves is the model's reading of R241 (decision D21, log 8). Formalises: 30_encoding.md section 3,
43_macro_ops.md section 1, 92_eei_decisions.md D13, D15, D21, notes/assumptions/8.md, notes/assumptions/15.md,
notes/assumptions/16.md. -/
def Obligations.MacroOperationsAreTheirExpansions : Prop :=
  (∀ (s : State) (n : Fin 9) (value : Int) (lz : Bool) (v0 : Nat), s.Accepts → s.dev.numDigits = some n →
    (((value < 0 ∨ 10 ^ n.val ≤ value) ∧ v0 = 0) ∨ (value = (v0 : Int) ∧ v0 < 10 ^ n.val)) →
    exec (.displayNumber value lz) s =
      execAll ((List.range n.val).map fun i =>
        if lz = true ∨ i < sigDigits s.params.numZeroUnits v0
        then .setDigit (i : Int) ((v0 / 10 ^ i % 10 : Nat) : Int) false
        else .clearDigit (i : Int)) s) ∧
  (∀ (s : State) (hour minute : Int), s.Accepts → s.dev.numDigits = some 4 → 0 ≤ minute → minute ≤ 59 → hour ≤ 23 →
    exec (.displayTime hour minute) s =
      execAll ([.setDigit 0 (minute % 10) false, .setDigit 1 (minute / 10) false] ++
        (if hour < 0 then [.clearDigit 2, .clearDigit 3]
         else [.setDigit 2 (hour % 10) false, .setDigit 3 (hour / 10) false])) s)

/-- Under R112's constraints on DIGIT_ROM every Command these operations append writes a digit position and has bit
7 clear. That the original sends no point there is the spec's choice (decisions D13, D15, logs 15, 16). Formalises:
95_test_vectors.md section 5, 43_macro_ops.md section 1, 92_eei_decisions.md D13, D15, notes/assumptions/15.md,
notes/assumptions/16.md. -/
def Obligations.NumbersAndTimesNeverLightThePoint : Prop :=
  ∀ (s t : State) (i : Instr), s.params.wf →
    ((∃ value lz, i = .displayNumber value lz) ∨ (∃ hour minute, i = .displayTime hour minute) ∨
      (∃ total, i = .displayMinutes total)) →
    exec i s = .next t →
    ∃ new, t.cmd = s.cmd ++ new ∧ ∀ c ∈ new, c.data.getLsbD 7 = false ∧ ∃ position, c.op = .digit position

/-- Request code 0xB is DIGITPATTERN of the signed operand; with one owner and the block not stuck a value 0 to 15
is answered with DIGIT_ROM[value] on the response port and nothing else changes, constructed or not; any other
value is refused, never clamped, wrapped or blanked. The refusal is the spec's own choice (decision D12, log 18).
The history of responses is the model's own (log 11). Formalises: 40_glyph_rom.md section 1, 92_eei_decisions.md
D12, notes/assumptions/18.md, notes/assumptions/11.md. -/
def Obligations.DigitPatternAnswersTheRom : Prop :=
  (∀ (w : Nat) (flag : Bool) (a b : Operand w),
    decodeRequest 0xB flag a b = .ok (.digitPattern a.toInt)) ∧
  ∀ (s : State) (value : Int), s.secondOwner = false →
    (∀ v : Fin 16, value = (v.val : Int) → s.blocked = false →
      exec (.digitPattern value) s = .next { s with rsp := s.rsp ++ [s.params.digitRom.get v] }) ∧
    ((value < 0 ∨ 15 < value) → exec (.digitPattern value) s = .refused .digitpatternValueOutOfRange)

/-- Request code 0xC is CHARPATTERN of the signed operand; with one owner and the block not stuck a code 0 to 47 is
answered with 0x00, a code 48 to 47 + CHAR_LEN and at most 127 with CHAR_ROM[code - 48], and nothing else changes,
constructed or not; a code past the table's end is refused, as is one outside 0 to 127. The single subtraction of
48 and the refusals are the spec's own choices (conflict C1, decisions D5, D12, logs 14, 18). The history of
responses is the model's own (log 11). Formalises: 40_glyph_rom.md section 1, 92_eei_decisions.md D5, D12,
notes/assumptions/14.md, notes/assumptions/18.md, notes/assumptions/11.md. -/
def Obligations.CharPatternAnswersTheTable : Prop :=
  (∀ (w : Nat) (flag : Bool) (a b : Operand w),
    decodeRequest 0xC flag a b = .ok (.charPattern a.toInt)) ∧
  ∀ (s : State) (code : Int), s.secondOwner = false →
    ((0 ≤ code ∧ code < 48) → s.blocked = false →
      exec (.charPattern code) s = .next { s with rsp := s.rsp ++ [0x00] }) ∧
    (∀ (k : Nat) (g : Byte), code = 48 + (k : Int) → code ≤ 127 → s.params.charRom[k]? = some g → s.blocked = false →
      exec (.charPattern code) s = .next { s with rsp := s.rsp ++ [g] }) ∧
    ((48 + (s.params.charLen : Int) ≤ code ∧ code ≤ 127) →
      exec (.charPattern code) s = .refused .charpatternPastTableEnd) ∧
    ((code < 0 ∨ 127 < code) → exec (.charPattern code) s = .refused .charpatternNotAscii)

/-- Request code 0x0 is CONSTRUCT. With one owner: a second CONSTRUCT is refused before the digit count is looked
at; a digit count outside 1 to 8 is refused; with the channel completing, 1 to 7 digits send the five Commands, the
fourth (0x0B, numDigits), and set every register; 8 digits send four, or under INIT_SCAN_RAW five with (0x0B,
0x08), and SCAN_LIMIT takes some value 0 to 7. The data of the decode-mode Command, the refusals, the step for 8
digits and the kept identifier are choices of the spec and of the model (decisions D9, D18, D19, D23, D25, logs 12,
13, 18, 25). Formalises: 70_reset_and_hazards.md section 1, 92_eei_decisions.md D8, D9, D18, D19, D23, D25,
notes/assumptions/12.md, notes/assumptions/13.md, notes/assumptions/18.md, notes/assumptions/25.md. -/
def Obligations.ConstructRunsItsFiveSteps : Prop :=
  (∀ (w : Nat) (flag : Bool) (a b : Operand w),
    decodeRequest 0x0 flag a b = .ok (.construct b.toNat a.toInt)) ∧
  ∀ (s : State) (cs : Nat) (count : Int), s.secondOwner = false →
    (s.constructed = true → exec (.construct cs count) s = .refused .secondConstruct) ∧
    (s.constructed = false → (count < 1 ∨ 8 < count) → exec (.construct cs count) s = .refused .constructDigitCount) ∧
    (∀ (n : Fin 9) (l : Fin 8), s.constructed = false → count = (n.val : Int) → 1 ≤ n.val → l.val = n.val →
      s.CanTransfer 5 →
      exec (.construct cs count) s =
        .next ({ s with
          constructed := true
          dev := ⟨some n, some s.params.intensityDefault, some l, some false, some false, some .disabled, some cs⟩
          }.afterCommands
          [⟨.shutdown, 0x01⟩, ⟨.displayTest, 0x00⟩, ⟨.intensity, BitVec.ofNat 8 s.params.intensityDefault.val⟩,
           ⟨.scanLimit, BitVec.ofNat 8 n.val⟩, ⟨.decodeMode, 0x00⟩])) ∧
    (s.constructed = false → count = 8 → s.CanTransfer 5 →
      ∃ l : Fin 8, exec (.construct cs count) s =
        .next ({ s with
          constructed := true
          draws := s.draws + 1
          dev := ⟨some 8, some s.params.intensityDefault, some l, some false, some false, some .disabled, some cs⟩
          }.afterCommands
          (([⟨.shutdown, 0x01⟩, ⟨.displayTest, 0x00⟩,
             ⟨.intensity, BitVec.ofNat 8 s.params.intensityDefault.val⟩] : List Command) ++
           (if s.params.initScanRaw then [Command.mk .scanLimit 0x08] else []) ++ [Command.mk .decodeMode 0x00])))

/-- With one owner and a channel that completes, CONSTRUCT of 1 to 8 digits sends its Commands in the order
shutdown, display test, intensity, scan limit (where it is sent), decode mode, so decode mode comes after scan
limit and test; and the last shutdown and display-test Commands of the whole stream carry 0x01 and 0x00. That the
scan-limit Command is sent exactly for 1 to 7 digits or under INIT_SCAN_RAW is the spec's own choice (conflict C2,
decision D9, log 25). Formalises: 70_reset_and_hazards.md section 1, 92_eei_decisions.md D9,
notes/assumptions/25.md. -/
def Obligations.ConstructKeepsThePowerUpOrder : Prop :=
  ∀ (s : State) (cs : Nat) (n : Fin 9), s.secondOwner = false → s.constructed = false → 1 ≤ n.val →
    s.CanTransfer 5 →
    ∃ t new, exec (.construct cs (n.val : Int)) s = .next t ∧ t.cmd = s.cmd ++ new ∧
      new.map (·.op) = [.shutdown, .displayTest, .intensity] ++
        (if n.val ≤ 7 ∨ s.params.initScanRaw = true then [.scanLimit] else []) ++ [.decodeMode] ∧
      lastSent t.cmd .shutdown = some 0x01 ∧ lastSent t.cmd .displayTest = some 0x00

/-- At reset nothing is constructed, no register exists, CMD is empty and no chip register is known. After
CONSTRUCT of 1 to 8 digits with one owner and a channel that completes, every register has the value of the table,
SCAN_LIMIT for 8 digits some value 0 to 7, the ROMs are unchanged, four or five Commands were sent and the chip's
digit registers were not written. That no register exists before CONSTRUCT and the free SCAN_LIMIT are the spec's
own choices (decisions D9, D18, D19, logs 6, 7, 25). Formalises: 10_state.md section 3, 92_eei_decisions.md D9,
D18, D19, notes/assumptions/6.md, notes/assumptions/7.md, notes/assumptions/25.md. -/
def Obligations.ValuesBeforeAndAfterConstruct : Prop :=
  (State.reset.constructed = false ∧ State.reset.dev.numDigits = none ∧ State.reset.dev.shutdownF = none ∧
    State.reset.dev.testF = none ∧ State.reset.dev.intensity = none ∧ State.reset.dev.scanLimit = none ∧
    State.reset.dev.decodeMode = none ∧ State.reset.cmd = [] ∧ ∀ a, State.reset.chip.read a = none) ∧
  ∀ (s : State) (cs : Nat) (n : Fin 9), s.secondOwner = false → s.constructed = false → 1 ≤ n.val →
    s.CanTransfer 5 →
    ∃ t, exec (.construct cs (n.val : Int)) s = .next t ∧
      t.constructed = true ∧ t.dev.numDigits = some n ∧ t.dev.shutdownF = some false ∧ t.dev.testF = some false ∧
      t.dev.intensity = some s.params.intensityDefault ∧
      (n.val ≤ 7 → t.dev.scanLimit.map (·.val) = some n.val) ∧
      (n = 8 → ∃ l : Fin 8, t.dev.scanLimit = some l) ∧
      t.dev.decodeMode = some .disabled ∧
      t.params.digitRom = s.params.digitRom ∧ t.params.charRom = s.params.charRom ∧
      t.cmd.length = s.cmd.length + (if n.val ≤ 7 ∨ s.params.initScanRaw = true then 5 else 4) ∧
      (∀ p : Fin 8, t.chip.read (opcodeAddress (.digit p)) = s.chip.read (opcodeAddress (.digit p)))

/-- With one owner and nothing constructed, SETINTENSITY, SETSCANLIMIT, SHUTDOWN, DISPLAYTEST, CLEARDIGIT,
SETDIGIT, SETCHAR, DISPLAYNUMBER, DISPLAYTIME and DISPLAYMINUTES are refused with not_constructed on every operand;
DIGITPATTERN of 0 to 15 and CHARPATTERN of 0 to 47 are answered. The refusal is the spec's own choice (decision
D18, log 18). The history of responses is the model's own (log 11). Formalises: 70_reset_and_hazards.md section 2,
92_eei_decisions.md D18, notes/assumptions/18.md, notes/assumptions/11.md. -/
def Obligations.RequestBeforeConstructionIsRefused : Prop :=
  ∀ s : State, s.secondOwner = false → s.constructed = false →
    (∀ v, exec (.setIntensity v) s = .refused .notConstructed) ∧
    (∀ v, exec (.setScanLimit v) s = .refused .notConstructed) ∧
    (∀ e, exec (.shutdown e) s = .refused .notConstructed) ∧
    (∀ e, exec (.displayTest e) s = .refused .notConstructed) ∧
    (∀ i, exec (.clearDigit i) s = .refused .notConstructed) ∧
    (∀ i v dp, exec (.setDigit i v dp) s = .refused .notConstructed) ∧
    (∀ i c dp, exec (.setChar i c dp) s = .refused .notConstructed) ∧
    (∀ v lz, exec (.displayNumber v lz) s = .refused .notConstructed) ∧
    (∀ h m, exec (.displayTime h m) s = .refused .notConstructed) ∧
    (∀ m, exec (.displayMinutes m) s = .refused .notConstructed) ∧
    (∀ v : Fin 16, s.blocked = false →
      exec (.digitPattern (v.val : Int)) s = .next { s with rsp := s.rsp ++ [s.params.digitRom.get v] }) ∧
    (∀ c : Nat, c < 48 → s.blocked = false →
      exec (.charPattern (c : Int)) s = .next { s with rsp := s.rsp ++ [0x00] })

/-- Where a second requester or controller is on the chip-select line, every instruction is refused with
second_owner whatever its operands, and so is every frame the block takes. That the flag stands for the forbidden
configuration is the model's choice (log 9). Formalises: 60_exceptions.md sections 1 and 2, notes/assumptions/9.md.
-/
def Obligations.SecondOwnerIsRefusedFirst : Prop :=
  (∀ (i : Instr) (s : State), s.secondOwner = true → exec i s = .refused .secondOwner) ∧
  ∀ (s : State) (f : Frame) (rest : List Frame), s.secondOwner = true → s.blocked = false → s.requests = f :: rest →
    step s = .refused .secondOwner

/-- On an accepting block each rejected request of the list (intensity, scan limit, digit index, digit value, digit
count for a time) answers with the very state it started from; and CONSTRUCT of 8 digits without INIT_SCAN_RAW
skips its scan-limit Command alone. That CONSTRUCT of 8 digits skips the scan-limit Command is the spec's own
choice (conflict C2, decision D9, log 25). Formalises: 60_exceptions.md section 1, 70_reset_and_hazards.md section
1, 92_eei_decisions.md D9, notes/assumptions/25.md. -/
def Obligations.SilentRejectionChangesNothing : Prop :=
  (∀ s : State, s.Accepts →
    (∀ level, (level < 0 ∨ 15 < level) → exec (.setIntensity level) s = .next s) ∧
    (∀ limit, (limit < 0 ∨ 7 < limit) → exec (.setScanLimit limit) s = .next s) ∧
    (∀ index value dp, (index < 0 ∨ 7 < index) → exec (.setDigit index value dp) s = .next s) ∧
    (∀ index value dp, (value < 0 ∨ 15 < value) → exec (.setDigit index value dp) s = .next s) ∧
    (∀ (n : Fin 9) hour minute, s.dev.numDigits = some n → n ≠ 4 → exec (.displayTime hour minute) s = .next s) ∧
    (∀ (n : Fin 9) total, s.dev.numDigits = some n → n ≠ 4 → exec (.displayMinutes total) s = .next s)) ∧
  ∀ (s : State) (cs : Nat), s.secondOwner = false → s.constructed = false → s.params.initScanRaw = false →
    s.CanTransfer 4 →
    ∃ t, exec (.construct cs 8) s = .next t ∧ t.constructed = true ∧
      timesSent t.cmd .scanLimit = timesSent s.cmd .scanLimit ∧ t.cmd.length = s.cmd.length + 4

/-- When one of the 13 Commands answers a next state, no register, no parameter, no response and no waiting request
changes, and every byte of the chip register space outside the Command's own address reads as before. That a
Command runs by itself and writes no register is the model's choice (log 3). Formalises: 30_encoding.md section 1,
20_memory.md section 1, notes/assumptions/3.md. -/
def Obligations.CommandRowsFrame : Prop :=
  ∀ (s t : State) (i : Instr) (op : Opcode),
    ((∃ p g, (i, op) ∈ [(Instr.digit0 p g, Opcode.digit 0), (.digit1 p g, .digit 1), (.digit2 p g, .digit 2),
        (.digit3 p g, .digit 3), (.digit4 p g, .digit 4), (.digit5 p g, .digit 5), (.digit6 p g, .digit 6),
        (.digit7 p g, .digit 7)]) ∨
     (i = .decode ∧ op = .decodeMode) ∨ (∃ l, i = .intensity l ∧ op = .intensity) ∨
     (∃ l, i = .scanLimit l ∧ op = .scanLimit) ∨ (∃ n, i = .shutdownCmd n ∧ op = .shutdown) ∨
     (∃ b, i = .displayTestCmd b ∧ op = .displayTest)) →
    exec i s = .next t → t.dev = s.dev ∧ Untouched s t (· = opcodeAddress op)

/-- When one of these answers a next state, every register but its own, every parameter, response and waiting
request is unchanged, and every byte of the chip register space outside its own address (outside none, where the
operand is rejected) reads as before. That DECODEMODE runs by itself is the model's choice (log 4). Formalises:
41_config_ops.md, notes/assumptions/4.md. -/
def Obligations.ConfigurationOperationsFrame : Prop :=
  ∀ s t : State,
    (∀ level, exec (.setIntensity level) s = .next t →
      t.dev = { s.dev with intensity := t.dev.intensity } ∧
      Untouched s t (fun a => inRange? 16 level ≠ none ∧ a = opcodeAddress .intensity)) ∧
    (∀ limit, exec (.setScanLimit limit) s = .next t →
      t.dev = { s.dev with scanLimit := t.dev.scanLimit } ∧
      Untouched s t (fun a => inRange? 8 limit ≠ none ∧ a = opcodeAddress .scanLimit)) ∧
    (∀ enable, exec (.shutdown enable) s = .next t →
      t.dev = { s.dev with shutdownF := t.dev.shutdownF } ∧ Untouched s t (· = opcodeAddress .shutdown)) ∧
    (∀ enable, exec (.displayTest enable) s = .next t →
      t.dev = { s.dev with testF := t.dev.testF } ∧ Untouched s t (· = opcodeAddress .displayTest)) ∧
    (exec .decodeMode s = .next t →
      t.dev = { s.dev with decodeMode := t.dev.decodeMode } ∧ Untouched s t (· = opcodeAddress .decodeMode))

/-- When one of these answers a next state, every register, parameter, response and waiting request is unchanged,
and every byte of the chip register space outside the addressed digit register (outside none, where SETDIGIT's
index is out of range) reads as before. Formalises: 42_digit_ops.md. -/
def Obligations.DigitOperationsFrame : Prop :=
  ∀ (s t : State) (index value : Int) (dp : Bool),
    (exec (.clearDigit index) s = .next t ∨ exec (.setDigit index value dp) s = .next t ∨
      exec (.setChar index value dp) s = .next t) →
    t.dev = s.dev ∧
    Untouched s t (fun a => ∃ position, inRange? 8 index = some position ∧ a = opcodeAddress (.digit position))

/-- When one of these answers a next state, every register, parameter, response and waiting request is unchanged;
outside the digit registers of positions 0 to NUM_DIGITS - 1 (DISPLAYNUMBER), of positions 0 to 3 on four digits
(the times) every byte of the chip register space reads as before, and on any other digit count a time changes
none. Formalises: 43_macro_ops.md. -/
def Obligations.MacroOperationsFrame : Prop :=
  ∀ (s t : State) (n : Fin 9), s.dev.numDigits = some n →
    (∀ value lz, exec (.displayNumber value lz) s = .next t →
      t.dev = s.dev ∧
      Untouched s t (fun a => ∃ position : Fin 8, position.val < n.val ∧ a = opcodeAddress (.digit position))) ∧
    (∀ hour minute, exec (.displayTime hour minute) s = .next t →
      t.dev = s.dev ∧
      Untouched s t
        (fun a => n = 4 ∧ ∃ position : Fin 8, position.val < 4 ∧ a = opcodeAddress (.digit position))) ∧
    (∀ total, exec (.displayMinutes total) s = .next t →
      t.dev = s.dev ∧
      Untouched s t
        (fun a => n = 4 ∧ ∃ position : Fin 8, position.val < 4 ∧ a = opcodeAddress (.digit position)))

/-- When a lookup answers a next state, everything but the response port is exactly as before: no Command, no
register, no byte of the chip register space; and at most one response is added. The history of responses is the
model's own (log 11). Formalises: 40_glyph_rom.md section 1, notes/assumptions/11.md. -/
def Obligations.LookupsChangeOnlyTheResponse : Prop :=
  ∀ (s t : State) (v : Int),
    (exec (.digitPattern v) s = .next t ∨ exec (.charPattern v) s = .next t) →
    { t with rsp := s.rsp } = s ∧ ∃ answer, t.rsp = s.rsp ++ answer ∧ answer.length ≤ 1

/-- When CONSTRUCT answers a next state, the parameters, the responses, the waiting requests and the owner are
unchanged, and every byte of the chip register space outside the five configuration registers reads as before, the
eight digit registers among them. Formalises: 70_reset_and_hazards.md section 1. -/
def Obligations.ConstructFrame : Prop :=
  ∀ (s t : State) (cs : Nat) (count : Int), exec (.construct cs count) s = .next t →
    t.params = s.params ∧ t.rsp = s.rsp ∧ t.requests = s.requests ∧ t.secondOwner = s.secondOwner ∧
    (∀ a, (∀ op ∈ [Opcode.shutdown, .displayTest, .intensity, .scanLimit, .decodeMode], a ≠ opcodeAddress op) →
      t.chip.read a = s.chip.read a) ∧
    ∀ p : Fin 8, t.chip.read (opcodeAddress (.digit p)) = s.chip.read (opcodeAddress (.digit p))

/-- At reset the parameters meet R112 and R113, the chip register space is canonical and agrees with the empty CMD,
and the life-cycle invariant of a block that is given requests holds. How the open parameters stand at reset, the
canonical list and the empty port are the model's choices (logs 5, 10, 19). Formalises: 10_state.md section 3,
40_glyph_rom.md section 2, notes/assumptions/5.md, notes/assumptions/10.md, notes/assumptions/19.md. -/
def Obligations.ResetMeetsTheInvariant : Prop :=
  State.reset.Inv ∧ State.reset.Life

/-- From every state that meets it, whatever stands at the input and whatever the channel does, a step keeps: the
ROM constraints, the canonical form of the chip register space, each chip register holding the last data sent to it
and nothing outside the 13 registers written, every Command of CMD with data its rules form, NUM_DIGITS 1 to 8, and
all registers existing once constructed. The canonical list and the data 0x00 of the decode-mode Command are
choices of the model and of the spec (logs 10, 13). Formalises: 10_state.md, 20_memory.md section 1,
95_test_vectors.md section 5, notes/assumptions/10.md, notes/assumptions/13.md. -/
def Obligations.StepKeepsTheInvariant : Prop :=
  ∀ s t : State, s.Inv → step s = .next t → t.Inv

/-- From every state that meets it and whose input is the request port alone, a step keeps: exactly one decode-mode
Command once constructed and none before, an empty CMD before CONSTRUCT, and each shadow register equal to the
value last transmitted for it (SCAN_LIMIT apart only after INIT_SCAN_RAW's 8). What the shadow registers hold and
the decode-mode data are the spec's own choices (decisions D20, D23, log 13). Formalises: 10_state.md sections 1
and 2, 41_config_ops.md, 95_test_vectors.md section 5, 92_eei_decisions.md D20, D23, notes/assumptions/13.md. -/
def Obligations.StepKeepsTheLifeCycle : Prop :=
  ∀ s t : State, s.Life → step s = .next t → t.Life

/-- Whatever a step does, DIGIT_ROM, CHAR_ROM and the other parameters of the block are the same after it.
Formalises: R29. -/
def Obligations.RomsNeverChange : Prop :=
  ∀ s t : State, step s = .next t →
    t.params.digitRom = s.params.digitRom ∧ t.params.charRom = s.params.charRom ∧ t.params = s.params

/-- After a step CMD is what it was with some Commands added at its end, and the same holds of the responses. The
history of responses, and so the clause about it, is the model's choice (log 11). Formalises: 10_state.md section
1, 20_memory.md section 3, notes/assumptions/11.md. -/
def Obligations.CommandStreamOnlyGrows : Prop :=
  ∀ s t : State, step s = .next t → s.cmd <+: t.cmd ∧ s.rsp <+: t.rsp

/-- No instruction but CONSTRUCT changes NUM_DIGITS, the chip-select identifier or CONSTRUCTED; CONSTRUCT sets
NUM_DIGITS to its operand even where a transfer then hangs, and once constructed no step changes any of the three.
Keeping the identifier is read from the spec by inference (log 12). What a request that hangs leaves in a register
is the model's reading of R241 (decision D21, log 8). Formalises: 10_state.md section 1, 70_reset_and_hazards.md
section 1, notes/assumptions/12.md, 92_eei_decisions.md D21, notes/assumptions/8.md. -/
def Obligations.DigitCountIsWrittenByConstructAlone : Prop :=
  (∀ (s t : State) (i : Instr), (∀ cs n, i ≠ .construct cs n) → exec i s = .next t →
    t.dev.numDigits = s.dev.numDigits ∧ t.dev.chipSelect = s.dev.chipSelect ∧ t.constructed = s.constructed) ∧
  (∀ (s t : State) (cs : Nat) (n : Int), s.blocked = false → exec (.construct cs n) s = .next t →
    t.dev.numDigits.map (fun k => (k.val : Int)) = some n ∧ t.dev.chipSelect = some cs) ∧
  ∀ s t : State, s.constructed = true → step s = .next t →
    t.dev.numDigits = s.dev.numDigits ∧ t.dev.chipSelect = s.dev.chipSelect ∧ t.constructed = true

/-- Two states that differ at most in INTENSITY, SCAN_LIMIT, SHUTDOWN_F, TEST_F, DECODE_MODE, the chip-select
identifier, the chip register space, the count of free values and the operand width take steps that are refused
alike or end in states that again differ at most there, with the same CMD. Formalises: 00_scope.md section 4,
10_state.md section 2, 20_memory.md section 3. -/
def Obligations.OnlyTheDigitCountIsRead : Prop :=
  ∀ s t : State, SameButUnread s t → SameOutcome (step s) (step t)

/-- If an instruction leaves a block that was not stuck stuck, then the channel hung after some k transfers and
none is left to complete; the same instruction on the same state with a channel that always completes appends some
Commands to CMD, more than k of them, and here exactly the first k of these were appended. With a channel that
always completes the block is never stuck. The two moves of the channel are the spec's own choice and the model
holds them as plain data (decision D21, log 8). Formalises: 70_reset_and_hazards.md section 3, 20_memory.md section
3, 92_eei_decisions.md D21, notes/assumptions/8.md. -/
def Obligations.HungTransferStopsTheRequestThere : Prop :=
  (∀ (s t : State) (i : Instr), s.blocked = false → exec i s = .next t → t.blocked = true →
    ∃ (k : Nat) (u : State) (new : List Command), s.channel = .hangsAfter k ∧ t.channel = .hangsAfter 0 ∧
      exec i { s with channel := .completes } = .next u ∧ u.blocked = false ∧ u.cmd = s.cmd ++ new ∧
      k < new.length ∧ t.cmd = s.cmd ++ new.take k) ∧
  ∀ (s t : State) (i : Instr), s.channel = .completes → exec i s = .next t →
    t.blocked = s.blocked ∧ t.channel = .completes

/-- A power cycle leaves CONSTRUCTED false, no register, an empty CMD and no known chip register, whatever the
state was. Formalises: R235. -/
def Obligations.PowerLossForgetsEverything : Prop :=
  ∀ s : State, s.powerCycle.constructed = false ∧ s.powerCycle.dev = DeviceConfig.absent ∧ s.powerCycle.cmd = [] ∧
    ∀ a, s.powerCycle.chip.read a = none
end

