-- ==== Sys2Proof/Laws/Encoding.lean ====
section
/-! SUPPORT. How an operand stands on the request port, at every operand width: what fits is read back as it was
written, and what is read fits. -/

namespace Sys2Proof

theorem fitsOperand_iff {w : Nat} {v : Int} :
    fitsOperand w v = true ↔ -(2 ^ (w - 1) : Int) ≤ v ∧ v < 2 ^ (w - 1) := by
  simp [fitsOperand]

theorem fitsIdentifier_iff {w cs : Nat} : fitsIdentifier w cs = true ↔ cs < 2 ^ w := by
  simp [fitsIdentifier]

/-- R91: an integer that fits is read back as it was written. -/
theorem operandInt_intOperand {w : Nat} {v : Int} (hw : 0 < w) (h : fitsOperand w v = true) :
    operandInt (intOperand w v) = v := by
  obtain ⟨h1, h2⟩ := fitsOperand_iff.1 h
  exact BitVec.toInt_ofInt_eq_self hw h1 h2

/-- Writing back the integer that was read gives the same bits. -/
@[simp] theorem intOperand_operandInt {w : Nat} (a : Operand w) : intOperand w (operandInt a) = a :=
  BitVec.ofInt_toInt

theorem fitsOperand_operandInt {w : Nat} (a : Operand w) : fitsOperand w (operandInt a) = true :=
  fitsOperand_iff.2 ⟨BitVec.le_toInt a, BitVec.toInt_lt⟩

theorem identifierOperand_toNat {w cs : Nat} (h : fitsIdentifier w cs = true) :
    (identifierOperand w cs).toNat = cs := by
  simpa [identifierOperand] using Nat.mod_eq_of_lt (fitsIdentifier_iff.1 h)

@[simp] theorem identifierOperand_of_toNat {w : Nat} (a : Operand w) : identifierOperand w a.toNat = a :=
  by simp [identifierOperand]

theorem fitsIdentifier_toNat {w : Nat} (a : Operand w) : fitsIdentifier w a.toNat = true :=
  fitsIdentifier_iff.2 a.isLt

end Sys2Proof
end

