-- ==== Sys2Proof/Laws/State.lean ====
section
/-! SUPPORT. One lemma per field per update of the state, so that no proof unfolds a record update. -/

namespace Sys2Proof.Machine

open Sys2Proof

/-! ## writeDev -/

@[simp] theorem State.writeDev_params (s : State) (d : DeviceConfig) : (s.writeDev d).params = s.params := rfl
@[simp] theorem State.writeDev_dev (s : State) (d : DeviceConfig) : (s.writeDev d).dev = d := rfl
@[simp] theorem State.writeDev_constructed (s : State) (d : DeviceConfig) : (s.writeDev d).constructed = s.constructed := rfl
@[simp] theorem State.writeDev_cmd (s : State) (d : DeviceConfig) : (s.writeDev d).cmd = s.cmd := rfl
@[simp] theorem State.writeDev_chip (s : State) (d : DeviceConfig) : (s.writeDev d).chip = s.chip := rfl
@[simp] theorem State.writeDev_rsp (s : State) (d : DeviceConfig) : (s.writeDev d).rsp = s.rsp := rfl
@[simp] theorem State.writeDev_requests (s : State) (d : DeviceConfig) : (s.writeDev d).requests = s.requests := rfl
@[simp] theorem State.writeDev_blocked (s : State) (d : DeviceConfig) : (s.writeDev d).blocked = s.blocked := rfl
@[simp] theorem State.writeDev_channel (s : State) (d : DeviceConfig) : (s.writeDev d).channel = s.channel := rfl
@[simp] theorem State.writeDev_secondOwner (s : State) (d : DeviceConfig) : (s.writeDev d).secondOwner = s.secondOwner := rfl
@[simp] theorem State.writeDev_draws (s : State) (d : DeviceConfig) : (s.writeDev d).draws = s.draws := rfl

/-! ## drawScanLimit -/

@[simp] theorem State.drawScanLimit_params (s : State) : (s.drawScanLimit).params = s.params := rfl
@[simp] theorem State.drawScanLimit_dev (s : State) : (s.drawScanLimit).dev = { s.dev with scanLimit := some (Config.scanLimitDraw s.draws) } := rfl
@[simp] theorem State.drawScanLimit_constructed (s : State) : (s.drawScanLimit).constructed = s.constructed := rfl
@[simp] theorem State.drawScanLimit_cmd (s : State) : (s.drawScanLimit).cmd = s.cmd := rfl
@[simp] theorem State.drawScanLimit_chip (s : State) : (s.drawScanLimit).chip = s.chip := rfl
@[simp] theorem State.drawScanLimit_rsp (s : State) : (s.drawScanLimit).rsp = s.rsp := rfl
@[simp] theorem State.drawScanLimit_requests (s : State) : (s.drawScanLimit).requests = s.requests := rfl
@[simp] theorem State.drawScanLimit_blocked (s : State) : (s.drawScanLimit).blocked = s.blocked := rfl
@[simp] theorem State.drawScanLimit_channel (s : State) : (s.drawScanLimit).channel = s.channel := rfl
@[simp] theorem State.drawScanLimit_secondOwner (s : State) : (s.drawScanLimit).secondOwner = s.secondOwner := rfl
@[simp] theorem State.drawScanLimit_draws (s : State) : (s.drawScanLimit).draws = s.draws + 1 := rfl

/-! ## respond -/

@[simp] theorem State.respond_params (s : State) (b : Byte) : (s.respond b).params = s.params := rfl
@[simp] theorem State.respond_dev (s : State) (b : Byte) : (s.respond b).dev = s.dev := rfl
@[simp] theorem State.respond_constructed (s : State) (b : Byte) : (s.respond b).constructed = s.constructed := rfl
@[simp] theorem State.respond_cmd (s : State) (b : Byte) : (s.respond b).cmd = s.cmd := rfl
@[simp] theorem State.respond_chip (s : State) (b : Byte) : (s.respond b).chip = s.chip := rfl
@[simp] theorem State.respond_rsp (s : State) (b : Byte) : (s.respond b).rsp = s.rsp ++ [b] := rfl
@[simp] theorem State.respond_requests (s : State) (b : Byte) : (s.respond b).requests = s.requests := rfl
@[simp] theorem State.respond_blocked (s : State) (b : Byte) : (s.respond b).blocked = s.blocked := rfl
@[simp] theorem State.respond_channel (s : State) (b : Byte) : (s.respond b).channel = s.channel := rfl
@[simp] theorem State.respond_secondOwner (s : State) (b : Byte) : (s.respond b).secondOwner = s.secondOwner := rfl
@[simp] theorem State.respond_draws (s : State) (b : Byte) : (s.respond b).draws = s.draws := rfl

/-! ## setConstructed -/

@[simp] theorem State.setConstructed_params (s : State) : (s.setConstructed).params = s.params := rfl
@[simp] theorem State.setConstructed_dev (s : State) : (s.setConstructed).dev = s.dev := rfl
@[simp] theorem State.setConstructed_constructed (s : State) : (s.setConstructed).constructed = true := rfl
@[simp] theorem State.setConstructed_cmd (s : State) : (s.setConstructed).cmd = s.cmd := rfl
@[simp] theorem State.setConstructed_chip (s : State) : (s.setConstructed).chip = s.chip := rfl
@[simp] theorem State.setConstructed_rsp (s : State) : (s.setConstructed).rsp = s.rsp := rfl
@[simp] theorem State.setConstructed_requests (s : State) : (s.setConstructed).requests = s.requests := rfl
@[simp] theorem State.setConstructed_blocked (s : State) : (s.setConstructed).blocked = s.blocked := rfl
@[simp] theorem State.setConstructed_channel (s : State) : (s.setConstructed).channel = s.channel := rfl
@[simp] theorem State.setConstructed_secondOwner (s : State) : (s.setConstructed).secondOwner = s.secondOwner := rfl
@[simp] theorem State.setConstructed_draws (s : State) : (s.setConstructed).draws = s.draws := rfl

/-! ## takeFrame -/

@[simp] theorem State.takeFrame_params (s : State) (r : List Frame) : (s.takeFrame r).params = s.params := rfl
@[simp] theorem State.takeFrame_dev (s : State) (r : List Frame) : (s.takeFrame r).dev = s.dev := rfl
@[simp] theorem State.takeFrame_constructed (s : State) (r : List Frame) : (s.takeFrame r).constructed = s.constructed := rfl
@[simp] theorem State.takeFrame_cmd (s : State) (r : List Frame) : (s.takeFrame r).cmd = s.cmd := rfl
@[simp] theorem State.takeFrame_chip (s : State) (r : List Frame) : (s.takeFrame r).chip = s.chip := rfl
@[simp] theorem State.takeFrame_rsp (s : State) (r : List Frame) : (s.takeFrame r).rsp = s.rsp := rfl
@[simp] theorem State.takeFrame_requests (s : State) (r : List Frame) : (s.takeFrame r).requests = r := rfl
@[simp] theorem State.takeFrame_blocked (s : State) (r : List Frame) : (s.takeFrame r).blocked = s.blocked := rfl
@[simp] theorem State.takeFrame_channel (s : State) (r : List Frame) : (s.takeFrame r).channel = s.channel := rfl
@[simp] theorem State.takeFrame_secondOwner (s : State) (r : List Frame) : (s.takeFrame r).secondOwner = s.secondOwner := rfl
@[simp] theorem State.takeFrame_draws (s : State) (r : List Frame) : (s.takeFrame r).draws = s.draws := rfl

/-! ## present -/

@[simp] theorem State.present_params (s : State) (f : Frame) : (s.present f).params = s.params := rfl
@[simp] theorem State.present_dev (s : State) (f : Frame) : (s.present f).dev = s.dev := rfl
@[simp] theorem State.present_constructed (s : State) (f : Frame) : (s.present f).constructed = s.constructed := rfl
@[simp] theorem State.present_cmd (s : State) (f : Frame) : (s.present f).cmd = s.cmd := rfl
@[simp] theorem State.present_chip (s : State) (f : Frame) : (s.present f).chip = s.chip := rfl
@[simp] theorem State.present_rsp (s : State) (f : Frame) : (s.present f).rsp = s.rsp := rfl
@[simp] theorem State.present_requests (s : State) (f : Frame) : (s.present f).requests = f :: s.requests := rfl
@[simp] theorem State.present_blocked (s : State) (f : Frame) : (s.present f).blocked = s.blocked := rfl
@[simp] theorem State.present_channel (s : State) (f : Frame) : (s.present f).channel = s.channel := rfl
@[simp] theorem State.present_secondOwner (s : State) (f : Frame) : (s.present f).secondOwner = s.secondOwner := rfl
@[simp] theorem State.present_draws (s : State) (f : Frame) : (s.present f).draws = s.draws := rfl

/-! ## afterCommands -/

@[simp] theorem State.afterCommands_params (s : State) (cs : List Command) : (s.afterCommands cs).params = s.params := rfl
@[simp] theorem State.afterCommands_dev (s : State) (cs : List Command) : (s.afterCommands cs).dev = s.dev := rfl
@[simp] theorem State.afterCommands_constructed (s : State) (cs : List Command) : (s.afterCommands cs).constructed = s.constructed := rfl
@[simp] theorem State.afterCommands_cmd (s : State) (cs : List Command) : (s.afterCommands cs).cmd = s.cmd ++ cs := rfl
@[simp] theorem State.afterCommands_chip (s : State) (cs : List Command) : (s.afterCommands cs).chip = cs.foldl Memory.afterCommand s.chip := rfl
@[simp] theorem State.afterCommands_rsp (s : State) (cs : List Command) : (s.afterCommands cs).rsp = s.rsp := rfl
@[simp] theorem State.afterCommands_requests (s : State) (cs : List Command) : (s.afterCommands cs).requests = s.requests := rfl
@[simp] theorem State.afterCommands_blocked (s : State) (cs : List Command) : (s.afterCommands cs).blocked = s.blocked := rfl
@[simp] theorem State.afterCommands_channel (s : State) (cs : List Command) : (s.afterCommands cs).channel = s.channel.after cs.length := rfl
@[simp] theorem State.afterCommands_secondOwner (s : State) (cs : List Command) : (s.afterCommands cs).secondOwner = s.secondOwner := rfl
@[simp] theorem State.afterCommands_draws (s : State) (cs : List Command) : (s.afterCommands cs).draws = s.draws := rfl

/-! ## unconstructed -/

@[simp] theorem State.unconstructed_params (p : Params) : (State.unconstructed p).params = p := rfl
@[simp] theorem State.unconstructed_dev (p : Params) : (State.unconstructed p).dev = DeviceConfig.absent := rfl
@[simp] theorem State.unconstructed_constructed (p : Params) : (State.unconstructed p).constructed = false := rfl
@[simp] theorem State.unconstructed_cmd (p : Params) : (State.unconstructed p).cmd = [] := rfl
@[simp] theorem State.unconstructed_chip (p : Params) : (State.unconstructed p).chip = [] := rfl
@[simp] theorem State.unconstructed_rsp (p : Params) : (State.unconstructed p).rsp = [] := rfl
@[simp] theorem State.unconstructed_requests (p : Params) : (State.unconstructed p).requests = [] := rfl
@[simp] theorem State.unconstructed_blocked (p : Params) : (State.unconstructed p).blocked = false := rfl
@[simp] theorem State.unconstructed_channel (p : Params) : (State.unconstructed p).channel = .completes := rfl
@[simp] theorem State.unconstructed_secondOwner (p : Params) : (State.unconstructed p).secondOwner = false := rfl
@[simp] theorem State.unconstructed_draws (p : Params) : (State.unconstructed p).draws = 0 := rfl

/-! ## powerCycle -/

@[simp] theorem State.powerCycle_params (s : State) : s.powerCycle.params = s.params := rfl
@[simp] theorem State.powerCycle_dev (s : State) : s.powerCycle.dev = DeviceConfig.absent := rfl
@[simp] theorem State.powerCycle_constructed (s : State) : s.powerCycle.constructed = false := rfl
@[simp] theorem State.powerCycle_cmd (s : State) : s.powerCycle.cmd = [] := rfl
@[simp] theorem State.powerCycle_chip (s : State) : s.powerCycle.chip = [] := rfl
@[simp] theorem State.powerCycle_rsp (s : State) : s.powerCycle.rsp = [] := rfl
@[simp] theorem State.powerCycle_requests (s : State) : s.powerCycle.requests = [] := rfl
@[simp] theorem State.powerCycle_blocked (s : State) : s.powerCycle.blocked = false := rfl
@[simp] theorem State.powerCycle_channel (s : State) : s.powerCycle.channel = .completes := rfl
@[simp] theorem State.powerCycle_secondOwner (s : State) : s.powerCycle.secondOwner = false := rfl
@[simp] theorem State.powerCycle_draws (s : State) : s.powerCycle.draws = s.draws := rfl

theorem State.afterCommands_nil (s : State) : s.afterCommands [] = s := by
  cases s with
  | mk params dev constructed cmd chip rsp requests blocked channel secondOwner draws =>
    cases channel <;> simp [State.afterCommands, Channel.after]

theorem State.takeFrame_present (s : State) (f : Frame) : (s.present f).takeFrame s.requests = s := rfl

end Sys2Proof.Machine
end

