-- ==== Sys2Proof/Laws/Memory.lean ====
section
/-! SUPPORT. The laws of the chip register space: read after write, every other address unchanged, the canonical
form kept, and the addresses of the 13 registers apart. -/

namespace Sys2Proof.Machine

open Sys2Proof

@[simp] theorem Memory.read_nil (a : Nat) : Memory.read [] a = none := rfl

theorem Memory.read_write_same (m : Memory) (a : Nat) (d : Byte) : (m.write a d).read a = some d := by
  induction m with
  | nil => simp [Memory.write, Memory.read]
  | cons x m ih =>
    obtain ⟨b, e⟩ := x
    simp only [Memory.write]
    split
    · simp [Memory.read]
    · split
      · simp [Memory.read]
      · rename_i hne
        simp [Memory.read, hne, ih]

theorem Memory.read_write_other (m : Memory) {a b : Nat} (d : Byte) (h : b ≠ a) :
    (m.write a d).read b = m.read b := by
  induction m with
  | nil => simp [Memory.write, Memory.read, h]
  | cons x m ih =>
    obtain ⟨c, e⟩ := x
    simp only [Memory.write]
    split
    · simp [Memory.read, h]
    · split
      · rename_i heq
        subst heq
        simp [Memory.read, h]
      · simp only [Memory.read, ih]

theorem Memory.mem_write_address (m : Memory) (a : Nat) (d : Byte) :
    ∀ x ∈ m.write a d, x.1 = a ∨ ∃ y ∈ m, y.1 = x.1 := by
  induction m with
  | nil => intro x hx; simp [Memory.write] at hx; simp [hx]
  | cons y m ih =>
    obtain ⟨c, e⟩ := y
    intro x hx
    simp only [Memory.write] at hx
    split at hx
    · rcases List.mem_cons.1 hx with rfl | h
      · exact .inl rfl
      · exact .inr ⟨x, h, rfl⟩
    · split at hx
      · rcases List.mem_cons.1 hx with rfl | h
        · exact .inl rfl
        · exact .inr ⟨x, List.mem_cons_of_mem _ h, rfl⟩
      · rcases List.mem_cons.1 hx with rfl | h
        · exact .inr ⟨_, List.mem_cons_self .., rfl⟩
        · rcases ih x h with h | ⟨z, hz, hzx⟩
          · exact .inl h
          · exact .inr ⟨z, List.mem_cons_of_mem _ hz, hzx⟩

/-- A write keeps the canonical form. -/
theorem Memory.write_wf {m : Memory} (a : Nat) (d : Byte) (h : m.wf) : (m.write a d).wf := by
  induction m with
  | nil => simp [Memory.write]
  | cons x m ih =>
    obtain ⟨b, e⟩ := x
    have hb := (List.pairwise_cons.1 h).1
    have hm := (List.pairwise_cons.1 h).2
    simp only [Memory.write]
    split
    · rename_i hab
      refine List.pairwise_cons.2 ⟨?_, h⟩
      intro y hy
      rcases List.mem_cons.1 hy with rfl | hy
      · exact hab
      · exact lt_trans hab (hb y hy)
    · split
      · rename_i _ hab
        subst hab
        exact List.pairwise_cons.2 ⟨hb, hm⟩
      · rename_i hlt hne
        refine List.pairwise_cons.2 ⟨?_, ih hm⟩
        intro y hy
        rcases Memory.mem_write_address m a d y hy with h1 | ⟨z, hz, hzy⟩
        · show b < y.1
          omega
        · show b < y.1
          have := hb z hz
          simp only at this
          omega

/-- The 13 registers have 13 addresses. -/
theorem opcodeAddress_injective {p q : Opcode} (h : opcodeAddress p = opcodeAddress q) : p = q := by
  cases p with
  | digit i =>
    cases q with
    | digit j =>
      have hi := i.isLt
      have hj := j.isLt
      simp [opcodeAddress, opcodeByte] at h
      congr 1
      apply Fin.ext
      omega
    | _ => exfalso; revert h; revert i; decide
  | _ =>
    cases q with
    | digit j => exfalso; revert h; revert j; decide
    | _ => first | rfl | exact absurd h (by decide)

theorem Memory.afterCommand_wf {m : Memory} (c : Command) (h : m.wf) : (m.afterCommand c).wf :=
  Memory.write_wf _ _ h

theorem Memory.afterCommand_read_self (m : Memory) (c : Command) :
    (m.afterCommand c).read (opcodeAddress c.op) = some c.data := Memory.read_write_same ..

theorem Memory.afterCommand_read_other (m : Memory) (c : Command) {a : Nat} (h : a ≠ opcodeAddress c.op) :
    (m.afterCommand c).read a = m.read a := Memory.read_write_other _ _ h

theorem lastSent_append (cmd : List Command) (c : Command) (op : Opcode) :
    lastSent (cmd ++ [c]) op = if c.op = op then some c.data else lastSent cmd op := by
  by_cases h : c.op = op <;> simp [lastSent, h]

theorem timesSent_append (cmd : List Command) (c : Command) (op : Opcode) :
    timesSent (cmd ++ [c]) op = timesSent cmd op + if c.op = op then 1 else 0 := by
  by_cases h : c.op = op <;> simp [timesSent, List.filter_append, h]

end Sys2Proof.Machine
end

