-- ==== Sys2Proof/Laws/Perform.lean ====
section
/-! SUPPORT. What performing a plan can do, said once: it stops at the first transfer that never completes, it is
the plain sequence of its primitives where every transfer completes, and what every primitive keeps it keeps. -/

namespace Sys2Proof.Machine

open Sys2Proof

/-! ## Emit -/

/-- An Emit either completes or leaves the block stuck with nothing else changed (R68, R241). -/
theorem State.emit_cases (s : State) (c : Command) :
    (s.channel = .hangsAfter 0 ∧ s.emit c = { s with blocked := true }) ∨
    (s.channel ≠ .hangsAfter 0 ∧ s.emit c = s.afterCommands [c]) := by
  unfold State.emit
  cases hch : s.channel with
  | completes => right; simp [Channel.transfer, State.afterCommands, Channel.after, hch]
  | hangsAfter k =>
    cases k with
    | zero => left; simp [Channel.transfer]
    | succ k => right; simp [Channel.transfer, State.afterCommands, Channel.after, hch]

theorem Channel.after_after (ch : Channel) (j k : Nat) : (ch.after j).after k = ch.after (j + k) := by
  cases ch <;> simp [Channel.after, Nat.sub_sub]

theorem State.afterCommands_append (s : State) (cs ds : List Command) :
    (s.afterCommands cs).afterCommands ds = s.afterCommands (cs ++ ds) := by
  simp [State.afterCommands, Channel.after_after]

theorem State.CanTransfer.afterCommands {s : State} {k : Nat} {cs : List Command}
    (h : s.CanTransfer (cs.length + k)) : (s.afterCommands cs).CanTransfer k := by
  refine ⟨by simpa using h.1, ?_⟩
  intro m hm
  simp only [State.afterCommands_channel] at hm
  cases hch : s.channel with
  | completes => simp [hch, Channel.after] at hm
  | hangsAfter j =>
    have := h.2 j hch
    simp [hch, Channel.after] at hm
    omega

theorem State.CanTransfer.mono {s : State} {j k : Nat} (h : s.CanTransfer k) (hjk : j ≤ k) : s.CanTransfer j :=
  ⟨h.1, fun m hm => le_trans hjk (h.2 m hm)⟩

/-! ## Performing a plan -/

@[simp] theorem perform_nil (s : State) : perform [] s = s := rfl

theorem perform_of_blocked (as : List Action) {s : State} (h : s.blocked = true) : perform as s = s := by
  cases as <;> simp [perform, h]

theorem perform_cons {s : State} (a : Action) (as : List Action) (h : s.blocked = false) :
    perform (a :: as) s = perform as (act a s) := by
  simp [perform, h]

theorem perform_append (as bs : List Action) (s : State) : perform (as ++ bs) s = perform bs (perform as s) := by
  induction as generalizing s with
  | nil => rfl
  | cons a as ih =>
    by_cases h : s.blocked = true
    · simp [perform_of_blocked _ h]
    · simp only [Bool.not_eq_true] at h
      simp [perform_cons _ _ h, ih]

/-- What every primitive of a plan keeps, the plan keeps. -/
theorem perform_keeps {P : State → Prop} {as : List Action} {s : State}
    (hact : ∀ a ∈ as, ∀ s, s.blocked = false → P s → P (act a s)) (hs : P s) : P (perform as s) := by
  induction as generalizing s with
  | nil => exact hs
  | cons a as ih =>
    by_cases h : s.blocked = true
    · simpa [perform_of_blocked _ h] using hs
    · simp only [Bool.not_eq_true] at h
      rw [perform_cons _ _ h]
      exact ih (fun b hb => hact b (List.mem_cons_of_mem _ hb)) (hact a (List.mem_cons_self ..) s h hs)

/-- A primitive that completes. -/
def actDone (a : Action) (s : State) : State :=
  match a with
  | .emit c => s.afterCommands [c]
  | a => act a s

/-- A plan every transfer of which completes. -/
def performDone (as : List Action) (s : State) : State := as.foldl (fun s a => actDone a s) s

@[simp] theorem performDone_nil (s : State) : performDone [] s = s := rfl

@[simp] theorem performDone_cons (a : Action) (as : List Action) (s : State) :
    performDone (a :: as) s = performDone as (actDone a s) := rfl

theorem performDone_append (as bs : List Action) (s : State) :
    performDone (as ++ bs) s = performDone bs (performDone as s) := by
  simp [performDone]

/-- The Commands of a plan, in order. -/
def commandsOf : List Action → List Command
  | [] => []
  | .emit c :: as => c :: commandsOf as
  | _ :: as => commandsOf as

theorem act_eq_actDone_of_unblocked {a : Action} {s : State} (h : (act a s).blocked = false) :
    act a s = actDone a s := by
  cases a with
  | emit c =>
    rcases s.emit_cases c with ⟨_, h1⟩ | ⟨_, h1⟩
    · simp [act, h1] at h
    · simpa [act, actDone] using h1
  | _ => rfl

/-- A plan that leaves the block not stuck has performed all its primitives. -/
theorem perform_eq_performDone_of_unblocked {as : List Action} {s : State}
    (h : (perform as s).blocked = false) : perform as s = performDone as s := by
  induction as generalizing s with
  | nil => rfl
  | cons a as ih =>
    have hs : s.blocked = false := by
      by_contra hb
      simp only [Bool.not_eq_false] at hb
      rw [perform_of_blocked _ hb] at h
      simp [hb] at h
    rw [perform_cons _ _ hs] at h ⊢
    have ha : (act a s).blocked = false := by
      by_contra hb
      simp only [Bool.not_eq_false] at hb
      rw [perform_of_blocked _ hb] at h
      simp [hb] at h
    rw [ih h, performDone_cons, act_eq_actDone_of_unblocked ha]

theorem actDone_of_canTransfer {a : Action} {as : List Action} {s : State}
    (h : s.CanTransfer (commandsOf (a :: as)).length) :
    act a s = actDone a s ∧ (actDone a s).CanTransfer (commandsOf as).length := by
  cases a with
  | emit c =>
    rcases s.emit_cases c with ⟨h0, _⟩ | ⟨_, h1⟩
    · have := h.2 0 h0
      simp [commandsOf] at this
    · refine ⟨by simpa [act, actDone] using h1, ?_⟩
      apply State.CanTransfer.afterCommands
      simpa [commandsOf, Nat.add_comm] using h
  | _ => exact ⟨rfl, h.1, h.2⟩

/-- Where the channel completes as many transfers as the plan has Commands, the plan is performed whole. -/
theorem perform_eq_performDone_of_canTransfer {as : List Action} {s : State}
    (h : s.CanTransfer (commandsOf as).length) : perform as s = performDone as s := by
  induction as generalizing s with
  | nil => rfl
  | cons a as ih =>
    obtain ⟨h1, h2⟩ := actDone_of_canTransfer h
    rw [perform_cons _ _ h.1, performDone_cons, h1, ih h2]

theorem act_cmd_of_ne_emit {a : Action} (h : ∀ c, a ≠ .emit c) (s : State) :
    (act a s).cmd = s.cmd ∧ (act a s).channel = s.channel ∧ (act a s).blocked = s.blocked := by
  cases a with
  | emit c => exact absurd rfl (h c)
  | _ => exact ⟨rfl, rfl, rfl⟩

theorem commandsOf_cons_of_ne_emit {a : Action} (h : ∀ c, a ≠ .emit c) (as : List Action) :
    commandsOf (a :: as) = commandsOf as := by
  cases a with
  | emit c => exact absurd rfl (h c)
  | _ => rfl

/-- What a plan does to CMD: some first part of its Commands is added at the end; and where it leaves the block
stuck, that part is as long as the channel still completed, and not all of them (R62, R241). -/
theorem perform_cmd (as : List Action) (s : State) :
    ∃ new, new <+: commandsOf as ∧ (perform as s).cmd = s.cmd ++ new ∧
      (s.blocked = false → (perform as s).blocked = true →
        s.channel = .hangsAfter new.length ∧ (perform as s).channel = .hangsAfter 0 ∧
          new.length < (commandsOf as).length) := by
  induction as generalizing s with
  | nil => exact ⟨[], List.nil_prefix, by simp, by simp +contextual⟩
  | cons a as ih =>
    by_cases hb : s.blocked = true
    · exact ⟨[], List.nil_prefix, by simp [perform_of_blocked _ hb], by simp [hb]⟩
    · simp only [Bool.not_eq_true] at hb
      rw [perform_cons _ _ hb]
      by_cases he : ∃ c, a = .emit c
      · obtain ⟨c, rfl⟩ := he
        rcases s.emit_cases c with ⟨h0, h1⟩ | ⟨h0, h1⟩
        · refine ⟨[], List.nil_prefix, ?_, ?_⟩
          · simp [act, h1, perform_of_blocked]
          · simp [act, h1, perform_of_blocked, h0, commandsOf]
        · obtain ⟨new, hp, hc, hh⟩ := ih (act (.emit c) s)
          refine ⟨c :: new, ?_, ?_, ?_⟩
          · simpa [commandsOf] using hp
          · rw [hc]
            simp [act, h1]
          · intro _ ht
            have hact : (act (.emit c) s).blocked = false := by simp [act, h1, hb]
            obtain ⟨h2, h3, h4⟩ := hh hact ht
            refine ⟨?_, h3, by simpa [commandsOf] using h4⟩
            simp only [act, h1, State.afterCommands_channel] at h2
            cases hch : s.channel with
            | completes => simp [hch, Channel.after] at h2
            | hangsAfter m =>
              rw [hch] at h0 h2
              simp only [Channel.after, List.length_cons, List.length_nil, Channel.hangsAfter.injEq] at h2
              have hm : m ≠ 0 := fun h => h0 (by rw [h])
              simp only [List.length_cons, Channel.hangsAfter.injEq]
              omega
      · have hne : ∀ c, a ≠ .emit c := fun c hc => he ⟨c, hc⟩
        obtain ⟨h1, h2, h3⟩ := act_cmd_of_ne_emit hne s
        obtain ⟨new, hp, hc, hh⟩ := ih (act a s)
        refine ⟨new, by rwa [commandsOf_cons_of_ne_emit hne], by rw [hc, h1], ?_⟩
        intro _ ht
        rw [← h2, commandsOf_cons_of_ne_emit hne]
        exact hh (by rw [h3, hb]) ht

theorem performDone_cmd (as : List Action) (s : State) : (performDone as s).cmd = s.cmd ++ commandsOf as := by
  induction as generalizing s with
  | nil => simp [commandsOf]
  | cons a as ih =>
    cases a with
    | emit c => simp [ih, actDone, commandsOf]
    | _ => simpa [ih, actDone, commandsOf] using (act_cmd_of_ne_emit (by simp) s).1

/-- A plan that leaves the block not stuck has added all its Commands to CMD, in order (R62). -/
theorem perform_cmd_of_unblocked {as : List Action} {s : State} (h : (perform as s).blocked = false) :
    (perform as s).cmd = s.cmd ++ commandsOf as := by
  rw [perform_eq_performDone_of_unblocked h, performDone_cmd]

/-- With a channel that completes no plan leaves the block stuck. -/
theorem perform_completes (as : List Action) {s : State} (h : s.channel = .completes) :
    (perform as s).channel = .completes ∧ (perform as s).blocked = s.blocked := by
  refine perform_keeps (P := fun t => t.channel = .completes ∧ t.blocked = s.blocked) ?_ ⟨h, rfl⟩
  intro a _ t _ ht
  by_cases he : ∃ c, a = .emit c
  · obtain ⟨c, rfl⟩ := he
    rcases t.emit_cases c with ⟨h0, _⟩ | ⟨_, h1⟩
    · rw [ht.1] at h0
      cases h0
    · simp [act, h1, ht.1, ht.2, Channel.after]
  · obtain ⟨_, h2, h3⟩ := act_cmd_of_ne_emit (fun c hc => he ⟨c, hc⟩) t
    exact ⟨h2.trans ht.1, h3.trans ht.2⟩

theorem commandsOf_emits (cs : List Command) : commandsOf (cs.map Action.emit) = cs := by
  induction cs with
  | nil => rfl
  | cons c cs ih => simp [commandsOf, ih]

theorem performDone_emits (cs : List Command) (s : State) :
    performDone (cs.map Action.emit) s = s.afterCommands cs := by
  induction cs generalizing s with
  | nil => simp [State.afterCommands_nil]
  | cons c cs ih => simp [ih, actDone, State.afterCommands_append]

/-- A plan of Commands alone, every transfer completing. -/
theorem perform_emits {cs : List Command} {s : State} (h : s.CanTransfer cs.length) :
    perform (cs.map Action.emit) s = s.afterCommands cs := by
  rw [perform_eq_performDone_of_canTransfer (by rwa [commandsOf_emits]), performDone_emits]

/-! ## Outcomes -/

theorem Plan.andThen_eq_ok {p q : Plan} {as : List Action} (h : Plan.andThen p q = .ok as) :
    ∃ bs cs, p = .ok bs ∧ q = .ok cs ∧ as = bs ++ cs := by
  cases p with
  | error r => simp [Plan.andThen] at h
  | ok bs =>
    cases q with
    | error r => simp [Plan.andThen] at h
    | ok cs => exact ⟨bs, cs, rfl, rfl, by simpa [Plan.andThen] using h.symm⟩

@[simp] theorem Plan.andThen_ok (as bs : List Action) :
    Plan.andThen (.ok as) (.ok bs) = .ok (as ++ bs) := rfl

theorem runPlan_next {p : Plan} {s t : State} (h : runPlan p s = .next t) :
    ∃ as, p = .ok as ∧ t = perform as s := by
  cases p with
  | error r => simp [runPlan] at h
  | ok as => exact ⟨as, rfl, by simpa [runPlan] using h.symm⟩

theorem ownedBy_next {p : Plan} {s t : State} (h : ownedBy p s = .next t) :
    s.secondOwner = false ∧ ∃ as, p = .ok as ∧ t = perform as s := by
  unfold ownedBy at h
  split at h
  · cases h
  · rename_i hso
    exact ⟨by simpa using hso, runPlan_next h⟩

theorem onController_next {p : Plan} {s t : State} (h : onController p s = .next t) :
    s.secondOwner = false ∧ s.constructed = true ∧ ∃ as, p = .ok as ∧ t = perform as s := by
  unfold onController at h
  split at h
  · cases h
  · rename_i hso
    split at h
    · rename_i hc
      exact ⟨by simpa using hso, hc, runPlan_next h⟩
    · cases h

theorem ownedBy_owned {s : State} (p : Plan) (h : s.secondOwner = false) : ownedBy p s = runPlan p s := by
  simp [ownedBy, h]

theorem onController_accepts {s : State} (p : Plan) (h : s.Accepts) : onController p s = runPlan p s := by
  simp [onController, h.1, h.2]

end Sys2Proof.Machine
end

