-- ==== Sys2Proof/Laws/Plans.lean ====
section
/-! SUPPORT. What each operand check and each plan is, said once: the callers cite these instead of unfolding. -/

namespace Sys2Proof.Machine

open Sys2Proof

/-! ## Operand checks -/

theorem inRange?_eq_some {n : Nat} {v : Int} {i : Fin n} : inRange? n v = some i ↔ v = (i.val : Int) := by
  unfold inRange?
  constructor
  · intro h
    split at h
    · simp only [Option.some.injEq] at h
      subst h
      simp only
      omega
    · cases h
  · intro h
    subst h
    have := i.isLt
    rw [dif_pos (by omega)]
    simp

theorem inRange?_eq_none {n : Nat} {v : Int} : inRange? n v = none ↔ v < 0 ∨ (n : Int) ≤ v := by
  unfold inRange?
  split <;> simp <;> omega

@[simp] theorem inRange?_val {n : Nat} (i : Fin n) : inRange? n (i.val : Int) = some i :=
  inRange?_eq_some.2 rfl

theorem digitCount?_eq_some {v : Int} {n : Fin 9} : digitCount? v = some n ↔ v = (n.val : Int) ∧ n ≠ 0 := by
  unfold digitCount?
  have hn := n.isLt
  constructor
  · intro h
    split at h
    · simp only [Option.some.injEq] at h
      subst h
      refine ⟨by simp only; omega, ?_⟩
      intro h0
      have := congrArg Fin.val h0
      simp at this
      omega
    · cases h
  · rintro ⟨rfl, h0⟩
    have : n.val ≠ 0 := fun h => h0 (Fin.ext h)
    rw [dif_pos (by omega)]
    simp

theorem digitCount?_eq_none {v : Int} : digitCount? v = none ↔ v < 1 ∨ 8 < v := by
  unfold digitCount?
  split <;> simp <;> omega

@[simp] theorem digitData_false (g : Byte) : digitData g false = g := by simp [digitData]

/-! ## Lookups -/

@[simp] theorem digitPattern_val (rom : Vector Byte 16) (v : Fin 16) :
    digitPattern rom (v.val : Int) = .ok (rom.get v) := by
  simp [digitPattern]

theorem digitPattern_out {rom : Vector Byte 16} {v : Int} (h : v < 0 ∨ 15 < v) :
    digitPattern rom v = .error .digitpatternValueOutOfRange := by
  have : inRange? 16 v = none := inRange?_eq_none.2 (by omega)
  simp [digitPattern, this]

theorem charPattern_blank {rom : List Byte} {code : Int} (h0 : 0 ≤ code) (h : code < 48) :
    charPattern rom code = .ok 0x00 := by
  rw [charPattern, if_neg (by omega), if_pos h]
  rfl

theorem charPattern_entry {rom : List Byte} {k : Nat} {g : Byte} (h : 48 + (k : Int) ≤ 127) (hg : rom[k]? = some g) :
    charPattern rom (48 + (k : Int)) = .ok g := by
  have hk : ((48 : Int) + k - 48).toNat = k := by omega
  rw [charPattern, if_neg (by omega), if_neg (by omega), hk, hg]

theorem charPattern_pastEnd {rom : List Byte} {code : Int} (h : 48 + (rom.length : Int) ≤ code) (h2 : code ≤ 127) :
    charPattern rom code = .error .charpatternPastTableEnd := by
  have hk : rom[(code - 48).toNat]? = none := by
    simp only [List.getElem?_eq_none_iff]
    omega
  rw [charPattern, if_neg (by omega), if_neg (by omega), hk]

theorem charPattern_notAscii {rom : List Byte} {code : Int} (h : code < 0 ∨ 127 < code) :
    charPattern rom code = .error .charpatternNotAscii := by
  rw [charPattern, if_pos (by omega)]

/-! ## Digit operations -/

@[simp] theorem planClearDigit_val (i : Fin 8) :
    planClearDigit (i.val : Int) = .ok [.emit ⟨.digit i, 0x00⟩] := by
  simp [planClearDigit, planDigitWrite, digitCommand, blankPattern]

@[simp] theorem planSetDigit_val (p : Params) (i : Fin 8) (v : Fin 16) (dp : Bool) :
    planSetDigit p (i.val : Int) (v.val : Int) dp = .ok [.emit (digitCommand i (p.digitRom.get v) dp)] := by
  simp [planSetDigit, planDigitWrite]

theorem planSetDigit_out {p : Params} {index value : Int} {dp : Bool}
    (h : index < 0 ∨ 7 < index ∨ value < 0 ∨ 15 < value) : planSetDigit p index value dp = .ok [] := by
  unfold planSetDigit
  split
  · rename_i i v hi hv
    have h1 := inRange?_eq_some.1 hi
    have h2 := inRange?_eq_some.1 hv
    have := i.isLt
    have := v.isLt
    omega
  · rfl

/-- SETDIGIT with operands in range, the position and the value given as numbers. -/
theorem planSetDigit_nat (p : Params) {i v : Nat} (hi : i < 8) (hv : v < 16) :
    planSetDigit p (i : Int) (v : Int) false = .ok [.emit (digitAt i (p.glyph v))] := by
  have h := planSetDigit_val p ⟨i, hi⟩ ⟨v, hv⟩ false
  simpa [digitCommand, digitAt, Params.glyph, Fin.ofNat, Nat.mod_eq_of_lt hi, Nat.mod_eq_of_lt hv] using h

theorem planClearDigit_nat {i : Nat} (hi : i < 8) :
    planClearDigit (i : Int) = .ok [.emit (digitAt i 0x00)] := by
  have h := planClearDigit_val ⟨i, hi⟩
  simpa [digitAt, Fin.ofNat, Nat.mod_eq_of_lt hi] using h

/-! ## DISPLAYNUMBER -/

/-- R171: up to its fuel, `decimalLength` is the number of decimal digits: position `i` is within it exactly where
the number reaches `10^i`. -/
theorem lt_decimalLength_iff {fuel v i : Nat} (hv : 0 < v) (hlt : v < 10 ^ fuel) (hi : 0 < i) :
    i < decimalLength fuel v ↔ 10 ^ i ≤ v := by
  induction fuel generalizing v i with
  | zero => simp at hlt; omega
  | succ f ih =>
    simp only [decimalLength]
    obtain ⟨j, rfl⟩ : ∃ j, i = j + 1 := ⟨i - 1, by omega⟩
    split
    · rename_i h10
      have : 10 ≤ 10 ^ (j + 1) := by
        calc 10 = 10 ^ 1 := rfl
          _ ≤ 10 ^ (j + 1) := Nat.pow_le_pow_right (by norm_num) (by omega)
      constructor <;> intro h <;> omega
    · rename_i h10
      have hv' : 0 < v / 10 := by omega
      have hlt' : v / 10 < 10 ^ f := by
        rw [pow_succ] at hlt
        omega
      rcases Nat.eq_zero_or_pos j with rfl | hj
      · have h1 : 0 < decimalLength f (v / 10) := by
          cases f with
          | zero => simp at hlt'; omega
          | succ f => simp only [decimalLength]; split <;> omega
        constructor
        · intro _; simp; omega
        · intro _; omega
      · rw [Nat.add_lt_add_iff_right, ih hv' hlt' hj, pow_succ, Nat.le_div_iff_mul_le (by norm_num)]

theorem decimalLength_pos {fuel : Nat} (h : 0 < fuel) (v : Nat) : 0 < decimalLength fuel v := by
  cases fuel with
  | zero => omega
  | succ f => simp only [decimalLength]; split <;> omega

/-- Position `i` shows a digit of `v0` exactly where R170 and R171 say so. -/
theorem lt_sigDigits_iff {units : ZeroUnits} {v i : Nat} (hv : v < 10 ^ 8) :
    i < sigDigits units v ↔ 10 ^ i ≤ v ∨ (v = 0 ∧ i = 0 ∧ units = .digit) := by
  unfold sigDigits
  split
  · rename_i h0
    subst h0
    have : ¬ 10 ^ i ≤ 0 := by
      have : 0 < 10 ^ i := Nat.pow_pos (by norm_num)
      omega
    cases units <;> simp
  · rename_i h0
    rcases Nat.eq_zero_or_pos i with rfl | hi
    · have := decimalLength_pos (show 0 < 8 by norm_num) v
      simp only [pow_zero]
      omega
    · rw [lt_decimalLength_iff (by omega) hv hi]
      simp [h0]

theorem shownValue_lt (n : Nat) (value : Int) : shownValue n value < 10 ^ n := by
  have : 0 < 10 ^ n := Nat.pow_pos (by norm_num)
  unfold shownValue
  split <;> omega

/-- The loop of R170 as the list of its Commands: it never refuses and never rejects (R207). -/
theorem numberLoop_eq (p : Params) (lz : Bool) (v0 : Nat) (hv0 : v0 < 10 ^ 8) (r i : Nat) (h : i + r ≤ 8) :
    numberLoop p lz (sigDigits p.numZeroUnits v0) r i (v0 / 10 ^ i) =
      .ok (((List.range' i r).map (numberCommand p lz v0)).map Action.emit) := by
  induction r generalizing i with
  | zero => rfl
  | succ r ih =>
    have hdiv : v0 / 10 ^ i / 10 = v0 / 10 ^ (i + 1) := by
      rw [Nat.div_div_eq_div_mul, pow_succ]
    have hrest := ih (i + 1) (by omega)
    have hd : v0 / 10 ^ i % 10 < 16 := by omega
    rw [numberLoop, hdiv, hrest]
    by_cases hc : lz = true ∨ i < sigDigits p.numZeroUnits v0
    · have h1 : (lz || decide (i < sigDigits p.numZeroUnits v0)) = true := by simpa using hc
      have h2 : lz = true ∨ 10 ^ i ≤ v0 ∨ (v0 = 0 ∧ i = 0 ∧ p.numZeroUnits = .digit) := by
        rw [lt_sigDigits_iff hv0] at hc
        exact hc
      rw [if_pos h1, planSetDigit_nat p (by omega) hd]
      simp [List.range'_succ, numberCommand, h2]
    · have h1 : (lz || decide (i < sigDigits p.numZeroUnits v0)) = false := by simpa using hc
      have h2 : ¬ (lz = true ∨ 10 ^ i ≤ v0 ∨ (v0 = 0 ∧ i = 0 ∧ p.numZeroUnits = .digit)) := by
        rw [lt_sigDigits_iff hv0] at hc
        exact hc
      rw [if_neg (by simp [h1]), planClearDigit_nat (by omega)]
      simp [List.range'_succ, numberCommand, h2]

/-- DISPLAYNUMBER's plan: one Command per position, in ascending order (R170, R174). -/
theorem planDisplayNumber_eq (p : Params) (n : Fin 9) (value : Int) (lz : Bool) :
    planDisplayNumber p n value lz =
      .ok (((List.range n.val).map (numberCommand p lz (shownValue n value))).map Action.emit) := by
  have hn : n.val ≤ 8 := by have := n.isLt; omega
  have hv : shownValue n value < 10 ^ 8 :=
    lt_of_lt_of_le (shownValue_lt n value) (Nat.pow_le_pow_right (by norm_num) hn)
  have h := numberLoop_eq p lz (shownValue n value) hv n.val 0 (by omega)
  rw [List.range_eq_range']
  simpa [planDisplayNumber] using h

/-! ## DISPLAYTIME and DISPLAYMINUTES -/

/-- The two digits of a number below 100, lower position first, as R172 sends them. -/
def pairCommands (p : Params) (position : Nat) (v : Nat) : List Command :=
  [digitAt position (p.glyph (v % 10)), digitAt (position + 1) (p.glyph (v / 10))]

theorem planHour_negative (p : Params) {hour : Int} (h : hour < 0) :
    planHour p hour = .ok ([digitAt 2 0x00, digitAt 3 0x00].map Action.emit) := by
  have h2 := planClearDigit_nat (i := 2) (by norm_num)
  have h3 := planClearDigit_nat (i := 3) (by norm_num)
  simp only [Nat.cast_ofNat] at h2 h3
  simp [planHour, h, h2, h3]

theorem planHour_shown (p : Params) {hour : Nat} (h : hour ≤ 23) :
    planHour p (hour : Int) = .ok ((pairCommands p 2 hour).map Action.emit) := by
  have h2 := planSetDigit_nat p (i := 2) (v := hour % 10) (by norm_num) (by omega)
  have h3 := planSetDigit_nat p (i := 3) (v := hour / 10) (by norm_num) (by omega)
  simp only [Nat.cast_ofNat, Int.natCast_emod, Int.natCast_ediv] at h2 h3
  have hneg : ¬ ((hour : Int) < 0) := by omega
  simp [planHour, hneg, h2, h3, pairCommands]

theorem planDisplayTime_eq (p : Params) {hour : Int} {minute : Nat} (hm : minute ≤ 59) (hh : hour ≤ 23) :
    planDisplayTime p 4 hour (minute : Int) =
      Plan.andThen (.ok ((pairCommands p 0 minute).map Action.emit)) (planHour p hour) := by
  have h0 := planSetDigit_nat p (i := 0) (v := minute % 10) (by norm_num) (by omega)
  have h1 := planSetDigit_nat p (i := 1) (v := minute / 10) (by norm_num) (by omega)
  simp only [Nat.cast_ofNat, Nat.cast_zero, Nat.cast_one, Int.natCast_emod, Int.natCast_ediv] at h0 h1
  have hc : ¬ ((minute : Int) < 0 ∨ (minute : Int) > 59 ∨ hour > 23) := by omega
  simp only [planDisplayTime, ne_eq, not_true_eq_false, if_false, hc, h0, h1, Plan.andThen_ok]
  simp [pairCommands]

theorem planDisplayTime_otherCount (p : Params) {n : Fin 9} (h : n ≠ 4) (hour minute : Int) :
    planDisplayTime p n hour minute = .ok [] := by
  simp [planDisplayTime, h, Plan.nop]

theorem planDisplayMinutes_otherCount (p : Params) {n : Fin 9} (h : n ≠ 4) (total : Int) :
    planDisplayMinutes p n total = .ok [] := by
  simp [planDisplayMinutes, h, Plan.nop]

/-! ## CONSTRUCT -/

theorem constructSteps_upToSeven (p : Params) (cs : Nat) {n : Fin 9} (h : n.val ≤ 7) :
    constructSteps p cs n = .ok
      [.writeChipSelect cs, .writeNumDigits n, .writeShutdown false, .emit ⟨.shutdown, 0x01⟩,
       .writeTest false, .emit ⟨.displayTest, 0x00⟩, .writeIntensity p.intensityDefault,
       .emit ⟨.intensity, BitVec.ofNat 8 p.intensityDefault.val⟩, .writeScanLimit ⟨n.val, by omega⟩,
       .emit ⟨.scanLimit, BitVec.ofNat 8 n.val⟩, .writeDecodeMode .disabled, .emit ⟨.decodeMode, 0x00⟩,
       .writeConstructed] := by
  have h7 : n ≤ 7 := h
  have hr := inRange?_val (n := 8) ⟨n.val, by omega⟩
  simp only at hr
  simp [constructSteps, planShutdown, planDisplayTest, planSetIntensity, planInitScanLimit, h7, planSetScanLimit,
    hr, planDecodeMode, shutdownData, testData, rawData]

theorem constructSteps_eight (p : Params) (cs : Nat) :
    constructSteps p cs 8 = .ok
      ([.writeChipSelect cs, .writeNumDigits 8, .writeShutdown false, .emit ⟨.shutdown, 0x01⟩,
        .writeTest false, .emit ⟨.displayTest, 0x00⟩, .writeIntensity p.intensityDefault,
        .emit ⟨.intensity, BitVec.ofNat 8 p.intensityDefault.val⟩] ++
       (if p.initScanRaw then [.emit ⟨.scanLimit, 0x08⟩] else []) ++
       [.drawScanLimit, .writeDecodeMode .disabled, .emit ⟨.decodeMode, 0x00⟩, .writeConstructed]) := by
  have h7 : ¬ ((8 : Fin 9) ≤ 7) := by decide
  cases hr : p.initScanRaw <;>
    simp [constructSteps, planShutdown, planDisplayTest, planSetIntensity, planInitScanLimit, h7, hr, planDecodeMode,
      shutdownData, testData, rawData]

/-- CONSTRUCT's plan is no refusal exactly on an unconstructed block and a legal digit count. -/
theorem planConstruct_ok {p : Params} {constructed : Bool} {cs : Nat} {count : Int} {as : List Action}
    (h : planConstruct p constructed cs count = .ok as) :
    constructed = false ∧ ∃ n : Fin 9, count = (n.val : Int) ∧ n ≠ 0 ∧ constructSteps p cs n = .ok as := by
  unfold planConstruct at h
  split at h
  · cases h
  · rename_i hc
    split at h
    · rename_i n hn
      obtain ⟨h2, h3⟩ := digitCount?_eq_some.1 hn
      exact ⟨by simpa using hc, n, h2, h3, h⟩
    · cases h

theorem planConstruct_unconstructed {p : Params} {cs : Nat} {n : Fin 9} (h : n ≠ 0) :
    planConstruct p false cs (n.val : Int) = constructSteps p cs n := by
  simp [planConstruct, digitCount?_eq_some.2 ⟨rfl, h⟩]

/-- The three step lists of CONSTRUCT: 1 to 7 digits, 8 digits under INIT_SCAN_RAW, 8 digits without it (R233), each with
CONSTRUCTED written last. -/
theorem constructSteps_cases (p : Params) (cs : Nat) (n : Fin 9) :
    (∃ l : Fin 8, l.val = n.val ∧ constructSteps p cs n = .ok
      ([.writeChipSelect cs, .writeNumDigits n, .writeShutdown false, .emit ⟨.shutdown, 0x01⟩,
       .writeTest false, .emit ⟨.displayTest, 0x00⟩, .writeIntensity p.intensityDefault,
       .emit ⟨.intensity, BitVec.ofNat 8 p.intensityDefault.val⟩, .writeScanLimit l,
       .emit ⟨.scanLimit, BitVec.ofNat 8 n.val⟩, .writeDecodeMode .disabled, .emit ⟨.decodeMode, 0x00⟩] ++
      [.writeConstructed])) ∨
    (n = 8 ∧ p.initScanRaw = true ∧ constructSteps p cs n = .ok
      ([.writeChipSelect cs, .writeNumDigits 8, .writeShutdown false, .emit ⟨.shutdown, 0x01⟩,
       .writeTest false, .emit ⟨.displayTest, 0x00⟩, .writeIntensity p.intensityDefault,
       .emit ⟨.intensity, BitVec.ofNat 8 p.intensityDefault.val⟩, .emit ⟨.scanLimit, 0x08⟩,
       .drawScanLimit, .writeDecodeMode .disabled, .emit ⟨.decodeMode, 0x00⟩] ++
      [.writeConstructed])) ∨
    (n = 8 ∧ p.initScanRaw = false ∧ constructSteps p cs n = .ok
      ([.writeChipSelect cs, .writeNumDigits 8, .writeShutdown false, .emit ⟨.shutdown, 0x01⟩,
       .writeTest false, .emit ⟨.displayTest, 0x00⟩, .writeIntensity p.intensityDefault,
       .emit ⟨.intensity, BitVec.ofNat 8 p.intensityDefault.val⟩,
       .drawScanLimit, .writeDecodeMode .disabled, .emit ⟨.decodeMode, 0x00⟩] ++
      [.writeConstructed])) := by
  by_cases h : n.val ≤ 7
  · exact .inl ⟨⟨n.val, by omega⟩, rfl, constructSteps_upToSeven p cs h⟩
  · have hn : n = 8 := by
      have := n.isLt
      apply Fin.ext
      simp
      omega
    subst hn
    cases hr : p.initScanRaw
    · exact .inr (.inr ⟨rfl, rfl, by simpa [hr] using constructSteps_eight p cs⟩)
    · exact .inr (.inl ⟨rfl, rfl, by simpa [hr] using constructSteps_eight p cs⟩)

end Sys2Proof.Machine
end

