-- ==== Sys2Proof/Laws/Exec.lean ====
section
/-! SUPPORT. Every instruction's meaning as one plan under the owner's guard, and what a next state of `exec` and of
`step` can be. -/

namespace Sys2Proof.Machine

open Sys2Proof

/-- The plan of an operation of the controller, refused where construction has not completed. -/
def whenConstructed (s : State) (p : Plan) : Plan := if s.constructed then p else .error .notConstructed

/-- The plan of each instruction, its construction test included. -/
def planOf (i : Instr) (s : State) : Plan :=
  match i with
  | .digit0 p g => planEmit ⟨.digit 0, digitFields p g⟩
  | .digit1 p g => planEmit ⟨.digit 1, digitFields p g⟩
  | .digit2 p g => planEmit ⟨.digit 2, digitFields p g⟩
  | .digit3 p g => planEmit ⟨.digit 3, digitFields p g⟩
  | .digit4 p g => planEmit ⟨.digit 4, digitFields p g⟩
  | .digit5 p g => planEmit ⟨.digit 5, digitFields p g⟩
  | .digit6 p g => planEmit ⟨.digit 6, digitFields p g⟩
  | .digit7 p g => planEmit ⟨.digit 7, digitFields p g⟩
  | .decode => planEmit ⟨.decodeMode, 0x00⟩
  | .intensity l => planEmit ⟨.intensity, nibbleData l⟩
  | .scanLimit l => planScanLimitCommand s.params l
  | .shutdownCmd n => planEmit ⟨.shutdown, bitData n⟩
  | .displayTestCmd t => planEmit ⟨.displayTest, bitData t⟩
  | .construct cs n => planConstruct s.params s.constructed cs n
  | .setIntensity level => whenConstructed s (planSetIntensity level)
  | .setScanLimit limit => whenConstructed s (planSetScanLimit limit)
  | .shutdown enable => whenConstructed s (planShutdown enable)
  | .displayTest enable => whenConstructed s (planDisplayTest enable)
  | .clearDigit index => whenConstructed s (planClearDigit index)
  | .setDigit index value dp => whenConstructed s (planSetDigit s.params index value dp)
  | .setChar index ascii dp => whenConstructed s (planSetChar s.params index ascii dp)
  | .displayNumber value lz => whenConstructed s (withDigitCount s fun n => planDisplayNumber s.params n value lz)
  | .displayTime hour minute => whenConstructed s (withDigitCount s fun n => planDisplayTime s.params n hour minute)
  | .displayMinutes total => whenConstructed s (withDigitCount s fun n => planDisplayMinutes s.params n total)
  | .digitPattern value => planLookup (digitPattern s.params.digitRom value)
  | .charPattern code => planLookup (charPattern s.params.charRom code)
  | .decodeMode => planDecodeMode

theorem onController_eq (p : Plan) (s : State) : onController p s = ownedBy (whenConstructed s p) s := by
  unfold onController ownedBy whenConstructed
  split
  · rfl
  · cases s.constructed <;> rfl

/-- No plan looks at what the channel will do (R68, R241). -/
@[simp] theorem planOf_channel (i : Instr) (s : State) (ch : Channel) :
    planOf i { s with channel := ch } = planOf i s := by
  cases i <;> rfl

/-- Every meaning is its plan under the owner's guard. -/
theorem exec_eq_plan (i : Instr) (s : State) : exec i s = ownedBy (planOf i s) s := by
  cases i <;> first | rfl | exact onController_eq _ _

/-- A next state of `exec` is the instruction's plan performed. -/
theorem exec_next {i : Instr} {s t : State} (h : exec i s = .next t) :
    s.secondOwner = false ∧ ∃ as, planOf i s = .ok as ∧ t = perform as s := by
  rw [exec_eq_plan] at h
  exact ownedBy_next h

/-- `exec` answers a next state where the plan is no refusal and there is one owner. -/
theorem exec_of_plan {i : Instr} {s : State} {as : List Action} (ho : s.secondOwner = false)
    (h : planOf i s = .ok as) : exec i s = .next (perform as s) := by
  rw [exec_eq_plan, ownedBy_owned _ ho, h]
  rfl

/-- `exec` refuses where the plan does. -/
theorem exec_of_refusal {i : Instr} {s : State} {r : Refusal} (ho : s.secondOwner = false)
    (h : planOf i s = .error r) : exec i s = .refused r := by
  rw [exec_eq_plan, ownedBy_owned _ ho, h]
  rfl

theorem exec_done {i : Instr} {s : State} {as : List Action} (ho : s.secondOwner = false)
    (h : planOf i s = .ok as) (hc : s.CanTransfer (commandsOf as).length) :
    exec i s = .next (performDone as s) := by
  rw [exec_of_plan ho h, perform_eq_performDone_of_canTransfer hc]

/-- A plan of Commands alone, every transfer completing: exactly those Commands are sent. -/
theorem exec_emits {i : Instr} {s : State} {cs : List Command} (ho : s.secondOwner = false)
    (h : planOf i s = .ok (cs.map Action.emit)) (hc : s.CanTransfer cs.length) :
    exec i s = .next (s.afterCommands cs) := by
  rw [exec_of_plan ho h, perform_emits hc]

/-- A plan of one register write and one Command, the transfer completing. -/
theorem exec_write_emit {i : Instr} {s : State} {a : Action} {c : Command} (ho : s.secondOwner = false)
    (h : planOf i s = .ok [a, .emit c]) (ha : commandsOf [a, .emit c] = [c]) (hc : s.CanTransfer 1) :
    exec i s = .next ((actDone a s).afterCommands [c]) := by
  rw [exec_done ho h (by rw [ha]; exact hc)]
  rfl

@[simp] theorem whenConstructed_true {s : State} (p : Plan) (h : s.constructed = true) : whenConstructed s p = p := by
  simp [whenConstructed, h]

theorem whenConstructed_ok {s : State} {p : Plan} {as : List Action} (h : whenConstructed s p = .ok as) :
    s.constructed = true ∧ p = .ok as := by
  unfold whenConstructed at h
  split at h
  · exact ⟨‹_›, h⟩
  · cases h

theorem withDigitCount_ok {s : State} {f : Fin 9 → Plan} {as : List Action} (h : withDigitCount s f = .ok as) :
    ∃ n, s.dev.numDigits = some n ∧ f n = .ok as := by
  unfold withDigitCount at h
  split at h
  · exact ⟨_, ‹_›, h⟩
  · cases h

@[simp] theorem withDigitCount_some {s : State} {n : Fin 9} (f : Fin 9 → Plan) (h : s.dev.numDigits = some n) :
    withDigitCount s f = f n := by
  simp [withDigitCount, h]

/-! ## What a plan's primitives are, instruction by instruction -/

/-- An Emit to one of the first `n` digit positions. -/
def emitsDigitBelow (n : Nat) (a : Action) : Prop := ∃ (i : Fin 8) (d : Byte), i.val < n ∧ a = .emit ⟨.digit i, d⟩

theorem planDigitWrite_ok {i : Fin 8} {r : Except Refusal Byte} {dp : Bool} {as : List Action}
    (h : planDigitWrite i r dp = .ok as) : ∃ d, as = [.emit ⟨.digit i, d⟩] := by
  unfold planDigitWrite at h
  split at h
  · exact ⟨_, by simpa [digitCommand] using h.symm⟩
  · cases h

theorem planClearDigit_ok {index : Int} {as : List Action} (h : planClearDigit index = .ok as) :
    ∃ i d, inRange? 8 index = some i ∧ as = [.emit ⟨.digit i, d⟩] := by
  unfold planClearDigit at h
  split at h
  · obtain ⟨d, hd⟩ := planDigitWrite_ok h
    exact ⟨_, d, ‹_›, hd⟩
  · cases h

theorem planSetDigit_ok {p : Params} {index value : Int} {dp : Bool} {as : List Action}
    (h : planSetDigit p index value dp = .ok as) :
    as = [] ∨ ∃ i d, inRange? 8 index = some i ∧ as = [.emit ⟨.digit i, d⟩] := by
  unfold planSetDigit at h
  split at h
  · obtain ⟨d, hd⟩ := planDigitWrite_ok h
    exact .inr ⟨_, d, ‹_›, hd⟩
  · exact .inl (by simpa [Plan.nop] using h.symm)

theorem planSetChar_ok {p : Params} {index ascii : Int} {dp : Bool} {as : List Action}
    (h : planSetChar p index ascii dp = .ok as) :
    ∃ i d, inRange? 8 index = some i ∧ as = [.emit ⟨.digit i, d⟩] := by
  unfold planSetChar at h
  split at h
  · obtain ⟨d, hd⟩ := planDigitWrite_ok h
    exact ⟨_, d, ‹_›, hd⟩
  · cases h

theorem emitsDigitBelow_numberCommand {p : Params} {lz : Bool} {v0 i n : Nat} (hi : i < n) (hn : n ≤ 8) :
    emitsDigitBelow n (.emit (numberCommand p lz v0 i)) := by
  unfold numberCommand digitAt
  have h8 : (Fin.ofNat 8 i).val < n := by
    have : i < 8 := by omega
    simpa [Fin.ofNat, Nat.mod_eq_of_lt this] using hi
  split
  · exact ⟨Fin.ofNat 8 i, _, h8, rfl⟩
  · exact ⟨Fin.ofNat 8 i, _, h8, rfl⟩

theorem planDisplayNumber_ok {p : Params} {n : Fin 9} {value : Int} {lz : Bool} {as : List Action}
    (h : planDisplayNumber p n value lz = .ok as) : ∀ a ∈ as, emitsDigitBelow n.val a := by
  rw [planDisplayNumber_eq] at h
  have hn := n.isLt
  simp only [Except.ok.injEq] at h
  subst h
  intro a ha
  simp only [List.map_map, List.mem_map, List.mem_range, Function.comp] at ha
  obtain ⟨i, hi, rfl⟩ := ha
  exact emitsDigitBelow_numberCommand hi (by omega)

theorem planDisplayTime_ok {p : Params} {n : Fin 9} {hour minute : Int} {as : List Action}
    (h : planDisplayTime p n hour minute = .ok as) :
    (n ≠ 4 ∧ as = []) ∨ (n = 4 ∧ ∀ a ∈ as, emitsDigitBelow 4 a) := by
  by_cases hn : n = 4
  · right
    refine ⟨hn, ?_⟩
    subst hn
    by_cases hr : minute < 0 ∨ minute > 59 ∨ hour > 23
    · simp [planDisplayTime, hr] at h
    · obtain ⟨m, rfl⟩ : ∃ m : Nat, minute = m := ⟨minute.toNat, by omega⟩
      rw [planDisplayTime_eq p (by omega) (by omega)] at h
      have hd : ∀ (k : Nat) (d : Byte), k < 4 → emitsDigitBelow 4 (.emit (digitAt k d)) := by
        intro k d hk
        exact ⟨Fin.ofNat 8 k, d, by simp [Fin.ofNat]; omega, rfl⟩
      by_cases hneg : hour < 0
      · rw [planHour_negative p hneg] at h
        simp only [Plan.andThen_ok, Except.ok.injEq] at h
        subst h
        intro a ha
        simp only [pairCommands, List.map_cons, List.map_nil, List.cons_append, List.nil_append, List.mem_cons,
          List.not_mem_nil, or_false] at ha
        rcases ha with rfl | rfl | rfl | rfl <;> exact hd _ _ (by norm_num)
      · obtain ⟨k, rfl⟩ : ∃ k : Nat, hour = k := ⟨hour.toNat, by omega⟩
        rw [planHour_shown p (by omega)] at h
        simp only [Plan.andThen_ok, Except.ok.injEq] at h
        subst h
        intro a ha
        simp only [pairCommands, List.map_cons, List.map_nil, List.cons_append, List.nil_append, List.mem_cons,
          List.not_mem_nil, or_false] at ha
        rcases ha with rfl | rfl | rfl | rfl <;> exact hd _ _ (by norm_num)
  · left
    rw [planDisplayTime_otherCount p hn] at h
    exact ⟨hn, by simpa using h.symm⟩

theorem planDisplayMinutes_ok {p : Params} {n : Fin 9} {total : Int} {as : List Action}
    (h : planDisplayMinutes p n total = .ok as) :
    (n ≠ 4 ∧ as = []) ∨ (n = 4 ∧ ∀ a ∈ as, emitsDigitBelow 4 a) := by
  unfold planDisplayMinutes at h
  split at h
  · exact .inl ⟨‹_›, by simpa [Plan.nop] using h.symm⟩
  · split at h
    · cases h
    · exact planDisplayTime_ok h

/-! ## The step -/

theorem step_blocked {s : State} (h : s.blocked = true) : step s = .next s := by simp [step, h]

theorem step_idle {s : State} (h : s.requests = []) : step s = .next s := by
  unfold step
  split
  · rfl
  · simp [h]

theorem step_request {s : State} {f : Frame} {rest : List Frame} (hb : s.blocked = false)
    (hr : s.requests = f :: rest) : step s = runFrame f (s.takeFrame rest) := by
  simp [step, hb, hr]

theorem runFrame_ok {f : Frame} {i : Instr} (s : State) (h : decodeFrame f = .ok i) : runFrame f s = exec i s := by
  simp [runFrame, h]

/-- A next state of a step: the block stuck or idle and unchanged, or one decoded instruction performed on the state
without its frame. -/
theorem step_next {s t : State} (h : step s = .next t) :
    t = s ∨ ∃ f rest i, s.blocked = false ∧ s.requests = f :: rest ∧ decodeFrame f = .ok i ∧
      exec i (s.takeFrame rest) = .next t := by
  by_cases hb : s.blocked = true
  · rw [step_blocked hb] at h
    exact .inl (by simpa using h.symm)
  · simp only [Bool.not_eq_true] at hb
    cases hr : s.requests with
    | nil =>
      rw [step_idle hr] at h
      exact .inl (by simpa using h.symm)
    | cons f rest =>
      rw [step_request hb hr] at h
      cases hd : decodeFrame f with
      | ok i =>
        rw [runFrame_ok _ hd] at h
        exact .inr ⟨f, rest, i, hb, rfl, hd, h⟩
      | error e =>
        unfold runFrame at h
        rw [hd] at h
        simp only at h
        split at h <;> cases h

end Sys2Proof.Machine
end

