-- ==== Sys2Proof/Laws/Frame.lean ====
section
/-! SUPPORT. What performing a plan leaves unchanged, by the kind of its primitives. -/

namespace Sys2Proof.Machine

open Sys2Proof

theorem mem_commandsOf {c : Command} {as : List Action} : c ∈ commandsOf as ↔ .emit c ∈ as := by
  induction as with
  | nil => simp [commandsOf]
  | cons a as ih =>
    cases a <;> simp [commandsOf, ih]

/-- What no primitive changes: the parameters (R29), the waiting requests, the owner. -/
theorem act_static (a : Action) (s : State) :
    (act a s).params = s.params ∧ (act a s).requests = s.requests ∧ (act a s).secondOwner = s.secondOwner := by
  cases a with
  | emit c => rcases s.emit_cases c with ⟨_, h⟩ | ⟨_, h⟩ <;> simp [act, h]
  | _ => exact ⟨rfl, rfl, rfl⟩

theorem perform_static (as : List Action) (s : State) :
    (perform as s).params = s.params ∧ (perform as s).requests = s.requests ∧
      (perform as s).secondOwner = s.secondOwner := by
  refine perform_keeps (P := fun t => t.params = s.params ∧ t.requests = s.requests ∧
    t.secondOwner = s.secondOwner) ?_ ⟨rfl, rfl, rfl⟩
  intro a _ t _ ht
  obtain ⟨h1, h2, h3⟩ := act_static a t
  exact ⟨h1.trans ht.1, h2.trans ht.2.1, h3.trans ht.2.2⟩

/-- A byte of the chip register space that no Command of the plan addresses reads as before. -/
theorem perform_read_other {as : List Action} {s : State} {addr : Nat}
    (h : ∀ c ∈ commandsOf as, addr ≠ opcodeAddress c.op) : (perform as s).chip.read addr = s.chip.read addr := by
  refine perform_keeps (P := fun t => t.chip.read addr = s.chip.read addr) ?_ rfl
  intro a ha t _ ht
  cases a with
  | emit c =>
    rcases t.emit_cases c with ⟨_, h1⟩ | ⟨_, h1⟩
    · simpa [act, h1] using ht
    · have hne := h c (mem_commandsOf.2 ha)
      simp only [act, h1, State.afterCommands_chip, List.foldl_cons, List.foldl_nil]
      rw [Memory.afterCommand_read_other _ _ hne, ht]
  | _ => exact ht

/-- An Emit. -/
def isEmit (a : Action) : Prop := ∃ c, a = .emit c

theorem act_emit_frame {a : Action} (h : isEmit a) (s : State) :
    (act a s).dev = s.dev ∧ (act a s).constructed = s.constructed ∧ (act a s).rsp = s.rsp ∧
      (act a s).draws = s.draws := by
  obtain ⟨c, rfl⟩ := h
  rcases s.emit_cases c with ⟨_, h1⟩ | ⟨_, h1⟩ <;> simp [act, h1]

/-- A plan of Commands alone changes no register, no response and draws no free value. -/
theorem perform_emits_frame {as : List Action} (h : ∀ a ∈ as, isEmit a) (s : State) :
    (perform as s).dev = s.dev ∧ (perform as s).constructed = s.constructed ∧ (perform as s).rsp = s.rsp ∧
      (perform as s).draws = s.draws := by
  refine perform_keeps (P := fun t => t.dev = s.dev ∧ t.constructed = s.constructed ∧ t.rsp = s.rsp ∧
    t.draws = s.draws) ?_ ⟨rfl, rfl, rfl, rfl⟩
  intro a ha t _ ht
  obtain ⟨h1, h2, h3, h4⟩ := act_emit_frame (h a ha) t
  exact ⟨h1.trans ht.1, h2.trans ht.2.1, h3.trans ht.2.2.1, h4.trans ht.2.2.2⟩

/-- The frame of a plan of Commands alone, all with addresses in `stored`. -/
theorem perform_emits_untouched {as : List Action} {stored : Nat → Prop} (h : ∀ a ∈ as, isEmit a)
    (hs : ∀ c, .emit c ∈ as → stored (opcodeAddress c.op)) (s : State) :
    (perform as s).dev = s.dev ∧ Untouched s (perform as s) stored := by
  obtain ⟨h1, h2, h3, h4⟩ := perform_emits_frame h s
  obtain ⟨h5, h6, h7⟩ := perform_static as s
  refine ⟨h1, h5, h2, h3, h6, h7, h4, ?_⟩
  intro addr ha
  refine perform_read_other ?_
  rintro c hc rfl
  exact ha (hs c (mem_commandsOf.1 hc))

/-- The frame of a plan of one register write and one Command. -/
theorem perform_write_emit_frame {a : Action} {c : Command} {stored : Nat → Prop} {dev : DeviceConfig} {s : State}
    (ha : act a s = s.writeDev dev) (hs : stored (opcodeAddress c.op)) :
    ((perform [a, .emit c] s).dev = dev ∨ perform [a, .emit c] s = s) ∧
      Untouched s (perform [a, .emit c] s) stored := by
  by_cases hb : s.blocked = true
  · rw [perform_of_blocked _ hb]
    exact ⟨.inr rfl, rfl, rfl, rfl, rfl, rfl, rfl, fun _ _ => rfl⟩
  · simp only [Bool.not_eq_true] at hb
    rw [perform_cons _ _ hb, ha]
    have hu := perform_emits_untouched (as := [.emit c]) (stored := stored)
      (by intro x hx; exact ⟨c, by simpa using hx⟩) (by intro d hd; simp at hd; rw [hd]; exact hs) (s.writeDev dev)
    exact ⟨.inl hu.1, hu.2.params, hu.2.constructed, hu.2.rsp, hu.2.requests, hu.2.secondOwner, hu.2.draws,
      hu.2.memory⟩

theorem emitsDigitBelow.isEmit {n : Nat} {a : Action} (h : emitsDigitBelow n a) : isEmit a := by
  obtain ⟨i, d, _, h⟩ := h
  exact ⟨_, h⟩

end Sys2Proof.Machine
end

