-- ==== Sys2Proof/Laws/PerInstr.lean ====
section
/-! SUPPORT. Laws made one instruction at a time. RowMatch: the words of an instruction are words of its row of
spec/opcode_table.json. -/

namespace Sys2Proof.Laws.RowMatch

open Sys2Proof

/-- The columns `match` and `mask` of a row: 16 bits of a Command word, or the 4 bits of `req_op`. -/
inductive Row where
  | command (mask pattern : CommandWord)
  | request (mask pattern : ReqOp)
  deriving DecidableEq, Repr

/-- The row of spec/opcode_table.json of each constructor. -/
def row : Instr → Row
  | .digit0 _ _ => .command 0xFF00 0x0100
  | .digit1 _ _ => .command 0xFF00 0x0200
  | .digit2 _ _ => .command 0xFF00 0x0300
  | .digit3 _ _ => .command 0xFF00 0x0400
  | .digit4 _ _ => .command 0xFF00 0x0500
  | .digit5 _ _ => .command 0xFF00 0x0600
  | .digit6 _ _ => .command 0xFF00 0x0700
  | .digit7 _ _ => .command 0xFF00 0x0800
  | .decode => .command 0xFFFF 0x0900
  | .intensity _ => .command 0xFFF0 0x0A00
  | .scanLimit _ => .command 0xFFF0 0x0B00
  | .shutdownCmd _ => .command 0xFFFE 0x0C00
  | .displayTestCmd _ => .command 0xFFFE 0x0F00
  | .construct _ _ => .request 0xF 0x0
  | .setIntensity _ => .request 0xF 0x1
  | .setScanLimit _ => .request 0xF 0x2
  | .shutdown _ => .request 0xF 0x3
  | .displayTest _ => .request 0xF 0x4
  | .clearDigit _ => .request 0xF 0x5
  | .setDigit _ _ _ => .request 0xF 0x6
  | .setChar _ _ _ => .request 0xF 0x7
  | .displayNumber _ _ => .request 0xF 0x8
  | .displayTime _ _ => .request 0xF 0x9
  | .displayMinutes _ => .request 0xF 0xA
  | .digitPattern _ => .request 0xF 0xB
  | .charPattern _ => .request 0xF 0xC
  | .decodeMode => .command 0xFFFF 0x0900

/-- The frame has the row's fixed bits. -/
def matchesRow : Row → Frame → Prop
  | .command mask pattern, .command w => w &&& mask = pattern
  | .request mask pattern, .request _ reqOp _ _ _ => reqOp &&& mask = pattern
  | _, _ => False

/-- At every operand width the words of a well-formed instruction are words of its row. -/
def Statement (i : Instr) : Prop := ∀ w, WellFormed w i = true → matchesRow (row i) (encode w i)

/-- The opcode byte stands in the high byte of a digit-write word. -/
theorem digitWord_opcode (opcode : Byte) (p : Bool) (g : BitVec 7) :
    (opcode ++ digitFields p g) &&& 0xFF00#16 = opcode ++ 0x00#8 := by
  ext k hk
  simp only [BitVec.getElem_and, BitVec.getElem_append]
  by_cases h : k < 8
  · have : (0xFF00#16)[k] = false := by revert k; decide
    simp [h, this]
  · have : (0xFF00#16)[k] = true := by revert k; decide
    simp [h, this]

theorem digit0 (p : Bool) (g : BitVec 7) : Statement (.digit0 p g) := by
  intro w _
  exact digitWord_opcode 0x01 p g

theorem digit1 (p : Bool) (g : BitVec 7) : Statement (.digit1 p g) := by
  intro w _
  exact digitWord_opcode 0x02 p g

theorem digit2 (p : Bool) (g : BitVec 7) : Statement (.digit2 p g) := by
  intro w _
  exact digitWord_opcode 0x03 p g

theorem digit3 (p : Bool) (g : BitVec 7) : Statement (.digit3 p g) := by
  intro w _
  exact digitWord_opcode 0x04 p g

theorem digit4 (p : Bool) (g : BitVec 7) : Statement (.digit4 p g) := by
  intro w _
  exact digitWord_opcode 0x05 p g

theorem digit5 (p : Bool) (g : BitVec 7) : Statement (.digit5 p g) := by
  intro w _
  exact digitWord_opcode 0x06 p g

theorem digit6 (p : Bool) (g : BitVec 7) : Statement (.digit6 p g) := by
  intro w _
  exact digitWord_opcode 0x07 p g

theorem digit7 (p : Bool) (g : BitVec 7) : Statement (.digit7 p g) := by
  intro w _
  exact digitWord_opcode 0x08 p g

theorem decode : Statement .decode := fun _ _ => rfl

theorem intensity (l : BitVec 4) : Statement (.intensity l) := by
  have h : ∀ l : BitVec 4, (0x0A#8 ++ nibbleData l) &&& 0xFFF0#16 = 0x0A00#16 := by decide
  exact fun _ _ => h l

theorem scanLimit (l : BitVec 4) : Statement (.scanLimit l) := by
  have h : ∀ l : BitVec 4, (0x0B#8 ++ nibbleData l) &&& 0xFFF0#16 = 0x0B00#16 := by decide
  exact fun _ _ => h l

theorem shutdownCmd (n : Bool) : Statement (.shutdownCmd n) := by
  have h : ∀ n : Bool, (0x0C#8 ++ bitData n) &&& 0xFFFE#16 = 0x0C00#16 := by decide
  exact fun _ _ => h n

theorem displayTestCmd (t : Bool) : Statement (.displayTestCmd t) := by
  have h : ∀ t : Bool, (0x0F#8 ++ bitData t) &&& 0xFFFE#16 = 0x0F00#16 := by decide
  exact fun _ _ => h t

theorem construct (cs : Nat) (n : Int) : Statement (.construct cs n) := fun _ _ => rfl

theorem setIntensity (v : Int) : Statement (.setIntensity v) := fun _ _ => rfl

theorem setScanLimit (v : Int) : Statement (.setScanLimit v) := fun _ _ => rfl

theorem shutdown (e : Bool) : Statement (.shutdown e) := fun _ _ => rfl

theorem displayTest (e : Bool) : Statement (.displayTest e) := fun _ _ => rfl

theorem clearDigit (i : Int) : Statement (.clearDigit i) := fun _ _ => rfl

theorem setDigit (i v : Int) (dp : Bool) : Statement (.setDigit i v dp) := fun _ _ => rfl

theorem setChar (i c : Int) (dp : Bool) : Statement (.setChar i c dp) := fun _ _ => rfl

theorem displayNumber (v : Int) (lz : Bool) : Statement (.displayNumber v lz) := fun _ _ => rfl

theorem displayTime (h m : Int) : Statement (.displayTime h m) := fun _ _ => rfl

theorem displayMinutes (m : Int) : Statement (.displayMinutes m) := fun _ _ => rfl

theorem digitPattern (v : Int) : Statement (.digitPattern v) := fun _ _ => rfl

theorem charPattern (c : Int) : Statement (.charPattern c) := fun _ _ => rfl

theorem decodeMode : Statement .decodeMode := fun _ _ => rfl

end Sys2Proof.Laws.RowMatch
end

