-- ==== Sys2Proof/Tests/Slice0.lean ====
section
/-! SUPPORT. The model's own tests. Expected results are those of 95_test_vectors.md (T.., S.., P..) or of the rule
named, under that file's fixtures; and for each obligation with hypotheses a witness that meets them. -/

namespace Sys2Proof.Tests

open Sys2Proof Sys2Proof.Machine

/-! ## Fixtures (95_test_vectors.md part 2) -/

def refDigitRom : Vector Byte 16 :=
  #v[0x7E, 0x30, 0x6D, 0x79, 0x33, 0x5B, 0x5F, 0x70, 0x7F, 0x7B, 0x77, 0x1F, 0x4E, 0x3D, 0x4F, 0x47]

def testCharRom : List Byte :=
  [0x7E, 0x30, 0x6D, 0x79, 0x33, 0x5B, 0x5F, 0x70, 0x7F, 0x7B, 0x00, 0x00, 0x00, 0x09, 0x00] ++
  [0x00, 0x00, 0x77, 0x1F, 0x4E, 0x3D, 0x4F, 0x47, 0x5E, 0x37, 0x30, 0x3C, 0x00, 0x0E, 0x00] ++
  [0x15, 0x7E, 0x67, 0x00, 0x05, 0x5B, 0x0F, 0x3E, 0x00, 0x00, 0x00, 0x3B, 0x00]

def refParams : Params := ⟨refDigitRom, testCharRom, 8, false, .digit, 32⟩

/-- The parameters with the other setting of the two switches and the least operand width. -/
def otherParams : Params := { refParams with initScanRaw := true, numZeroUnits := .blank, operandWidth := 12 }

/-- Not constructed. -/
def fresh (p : Params) : State := State.unconstructed p

/-- Constructed with `n` digits, the Commands of CONSTRUCT left out of CMD. -/
def ready (p : Params) (n : Fin 9) : State :=
  { State.unconstructed p with
    constructed := true
    dev := ⟨some n, some 8, some 4, some false, some false, some .disabled, some 0⟩ }

/-- `ready` with a channel that completes exactly `k` more transfers. -/
def readyHangs (n : Fin 9) (k : Nat) : State := { ready refParams n with channel := .hangsAfter k }

/-- The words of CMD after a next state. -/
def words : Host.Outcome State Fault Refusal → Option (List CommandWord)
  | .next t => some (t.cmd.map commandWord)
  | _ => none

/-- The registers after a next state. -/
def regs : Host.Outcome State Fault Refusal → Option DeviceConfig
  | .next t => some t.dev
  | _ => none

/-- The responses after a next state. -/
def answers : Host.Outcome State Fault Refusal → Option (List Byte)
  | .next t => some t.rsp
  | _ => none

def refusal : Host.Outcome State Fault Refusal → Option Refusal
  | .refused r => some r
  | _ => none

theorem test_charLen : refParams.charLen = 43 := by decide

/-! ## WellFormed: an ill-formed term for each check -/

theorem test_illFormed_scanLimit : WellFormed 32 (.scanLimit 9) = false ∧ WellFormed 32 (.scanLimit 8) = true := by decide

theorem test_illFormed_operands :
    WellFormed 32 (.construct 0 2147483648) = false ∧ WellFormed 32 (.setIntensity 2147483648) = false ∧
    WellFormed 32 (.setScanLimit (-2147483649)) = false ∧ WellFormed 32 (.clearDigit 2147483648) = false ∧
    WellFormed 32 (.setDigit 2147483648 0 false) = false ∧ WellFormed 32 (.setDigit 0 2147483648 false) = false ∧
    WellFormed 32 (.setChar (-2147483649) 0 false) = false ∧ WellFormed 32 (.setChar 0 (-2147483649) false) = false ∧
    WellFormed 32 (.displayNumber 2147483648 true) = false ∧ WellFormed 32 (.displayTime 2147483648 0) = false ∧
    WellFormed 32 (.displayTime 0 2147483648) = false ∧ WellFormed 32 (.displayMinutes 2147483648) = false ∧
    WellFormed 32 (.digitPattern (-2147483649)) = false ∧ WellFormed 32 (.charPattern 2147483648) = false := by
  decide

theorem test_illFormed_identifier :
    WellFormed 32 (.construct 4294967296 4) = false ∧ WellFormed 32 (.construct 4294967295 4) = true := by decide

/-- R6: another operand width, the least one. -/
theorem test_wellFormed_width_12 :
    WellFormed 12 (.setIntensity 2048) = false ∧ WellFormed 12 (.setIntensity (-2049)) = false ∧
    WellFormed 12 (.setIntensity 2047) = true ∧ WellFormed 12 (.setIntensity (-2048)) = true ∧
    WellFormed 12 (.construct 4096 4) = false := by
  decide

theorem test_wellFormed_operand_ends :
    WellFormed 32 (.setIntensity 2147483647) = true ∧ WellFormed 32 (.setIntensity (-2147483648)) = true := by decide

/-! ## Decoding: words written out from 30_encoding.md R81 to R91 -/

theorem test_decode_digits :
    decodeFrame (.command 0b0000000100000000) = .ok (.digit0 false 0) ∧
    decodeFrame (.command 0b0000001010000000) = .ok (.digit1 true 0) ∧
    decodeFrame (.command 0b0000001101111111) = .ok (.digit2 false 0x7F) ∧
    decodeFrame (.command 0b0000010011111111) = .ok (.digit3 true 0x7F) ∧
    decodeFrame (.command 0b0000010100000001) = .ok (.digit4 false 0x01) ∧
    decodeFrame (.command 0b0000011001000000) = .ok (.digit5 false 0x40) ∧
    decodeFrame (.command 0b0000011100110000) = .ok (.digit6 false 0x30) ∧
    decodeFrame (.command 0b0000100011000111) = .ok (.digit7 true 0x47) := by
  decide

theorem test_decode_configuration :
    decodeFrame (.command 0b0000100100000000) = .ok .decode ∧
    decodeFrame (.command 0b0000101000001010) = .ok (.intensity 10) ∧
    decodeFrame (.command 0b0000101100000100) = .ok (.scanLimit 4) ∧
    decodeFrame (.command 0b0000110000000001) = .ok (.shutdownCmd true) ∧
    decodeFrame (.command 0b0000110000000000) = .ok (.shutdownCmd false) ∧
    decodeFrame (.command 0b0000111100000001) = .ok (.displayTestCmd true) := by
  decide

theorem test_decode_requests :
    decodeFrame (.request 32 0x0 false 4 0xABCD) = .ok (.construct 0xABCD 4) ∧
    decodeFrame (.request 32 0x1 false 0x00000010 0) = .ok (.setIntensity 16) ∧
    decodeFrame (.request 32 0x2 true 9 7) = .ok (.setScanLimit 9) ∧
    decodeFrame (.request 32 0x3 true 0 0) = .ok (.shutdown true) ∧
    decodeFrame (.request 32 0x4 false 1 1) = .ok (.displayTest false) ∧
    decodeFrame (.request 32 0x5 false 2 0) = .ok (.clearDigit 2) ∧
    decodeFrame (.request 32 0x6 true 7 0x0F) = .ok (.setDigit 7 15 true) ∧
    decodeFrame (.request 32 0x7 true 1 0x20) = .ok (.setChar 1 32 true) ∧
    decodeFrame (.request 32 0x8 false 0x075BCD15 0) = .ok (.displayNumber 123456789 false) ∧
    decodeFrame (.request 32 0x9 false 0xFFFFFFFF 7) = .ok (.displayTime (-1) 7) ∧
    decodeFrame (.request 32 0xA false 0x000005DC 0) = .ok (.displayMinutes 1500) ∧
    decodeFrame (.request 32 0xB false 10 0) = .ok (.digitPattern 10) ∧
    decodeFrame (.request 32 0xC false 0x2D 0) = .ok (.charPattern 45) := by
  decide

/-- R91 on a port of 12 bits: sign extension from bit 11. -/
theorem test_decode_width_12 :
    decodeFrame (.request 12 0x9 false 0xFFF 7) = .ok (.displayTime (-1) 7) ∧
    decodeFrame (.request 12 0x8 true 0x7FF 0) = .ok (.displayNumber 2047 true) ∧
    decodeBytes 12 [0x08, 0x22, 0x00, 0x00] = .ok (.displayNumber 34 false) := by
  decide

/-- R90's reserved codes, R88's closed set, and data no rule forms. -/
theorem test_decode_rejects :
    decodeFrame (.request 32 0xD false 0 0) = .error .reservedRequest ∧
    decodeFrame (.request 32 0xF true 1 1) = .error .reservedRequest ∧
    decodeFrame (.command 0x0000) = .error .unknownOpcode ∧ decodeFrame (.command 0x0D00) = .error .unknownOpcode ∧
    decodeFrame (.command 0x1100) = .error .unknownOpcode ∧ decodeFrame (.command 0x0901) = .error .dataNeverFormed ∧
    decodeFrame (.command 0x0A10) = .error .dataNeverFormed ∧
    decodeFrame (.command 0x0B09) = .error .dataNeverFormed ∧
    decodeFrame (.command 0x0C02) = .error .dataNeverFormed := by
  decide

/-- R54: opcode first; and the model's packing of a request (log 2). -/
theorem test_decode_bytes :
    decodeBytes 32 [0x08, 0xC7] = .ok (.digit7 true 0x47) ∧
    decodeBytes 32 [0x16, 7, 0, 0, 0, 15, 0, 0, 0] = .ok (.setDigit 7 15 true) ∧
    decodeBytes 32 [0x08] = .error .badLength ∧ decodeTableWord 16 0x0900 = some .decode ∧
    decodeTableWord 8 0x0B = some (.digitPattern 0) ∧ decodeTableWord 8 0x0D = none := by
  decide

/-- R55, R82: the word of a Command. -/
theorem test_commandWord : commandWord ⟨.digit 7, 0xC7⟩ = 0x08C7 ∧ commandBytes ⟨.digit 7, 0xC7⟩ = [0x08, 0xC7] := by
  decide

/-! ## The Commands by themselves -/

theorem test_emit_digits :
    words (exec (.digit0 false 0x7E) (fresh refParams)) = some [0x017E] ∧
    words (exec (.digit1 true 0x00) (fresh refParams)) = some [0x0280] ∧
    words (exec (.digit2 false 0x6D) (fresh refParams)) = some [0x036D] ∧
    words (exec (.digit3 true 0x7F) (fresh refParams)) = some [0x04FF] ∧
    words (exec (.digit4 false 0x33) (fresh refParams)) = some [0x0533] ∧
    words (exec (.digit5 false 0x6D) (fresh refParams)) = some [0x066D] ∧
    words (exec (.digit6 false 0x6D) (fresh refParams)) = some [0x076D] ∧
    words (exec (.digit7 true 0x47) (fresh refParams)) = some [0x08C7] := by
  decide

theorem test_emit_configuration :
    words (exec .decode (fresh refParams)) = some [0x0900] ∧
    words (exec (.intensity 15) (fresh refParams)) = some [0x0A0F] ∧
    words (exec (.scanLimit 7) (fresh refParams)) = some [0x0B07] ∧
    words (exec (.scanLimit 8) (fresh otherParams)) = some [0x0B08] ∧
    refusal (exec (.scanLimit 8) (fresh refParams)) = some .commandNeverFormed ∧
    words (exec (.shutdownCmd true) (fresh refParams)) = some [0x0C01] ∧
    words (exec (.displayTestCmd true) (fresh refParams)) = some [0x0F01] := by
  decide

/-! ## CONSTRUCT and lifecycle (3.7) -/

theorem test_construct_T111_T113_T114 :
    words (exec (.construct 5 4) (fresh refParams)) = some [0x0C01, 0x0F00, 0x0A08, 0x0B04, 0x0900] ∧
    regs (exec (.construct 5 4) (fresh refParams)) =
      some ⟨some 4, some 8, some 4, some false, some false, some .disabled, some 5⟩ ∧
    words (exec (.construct 5 8) (fresh refParams)) = some [0x0C01, 0x0F00, 0x0A08, 0x0900] ∧
    words (exec (.construct 5 8) (fresh otherParams)) = some [0x0C01, 0x0F00, 0x0A08, 0x0B08, 0x0900] := by
  decide

theorem test_construct_refusals_T115_T116_T117 :
    refusal (exec (.construct 5 0) (fresh refParams)) = some .constructDigitCount ∧
    refusal (exec (.construct 5 9) (fresh refParams)) = some .constructDigitCount ∧
    refusal (exec (.construct 5 4) (ready refParams 4)) = some .secondConstruct ∧
    refusal (exec (.construct 5 0) (ready refParams 4)) = some .secondConstruct := by
  decide

theorem test_notConstructed_T118_P5 :
    refusal (exec (.setIntensity 3) (fresh refParams)) = some .notConstructed ∧
    refusal (exec (.setDigit 0 1 false) (fresh refParams)) = some .notConstructed := by
  decide

/-! ## Configuration operations (3.2) -/

theorem test_setIntensity_T21_T22_T23 :
    words (exec (.setIntensity 15) (ready refParams 4)) = some [0x0A0F] ∧
    (regs (exec (.setIntensity 15) (ready refParams 4))).map (·.intensity) = some (some 15) ∧
    words (exec (.setIntensity 16) (ready refParams 4)) = some [] ∧
    (regs (exec (.setIntensity (-1)) (ready refParams 4))).map (·.intensity) = some (some 8) := by
  decide

theorem test_setScanLimit_T25_T26_T36 :
    words (exec (.setScanLimit 7) (ready refParams 4)) = some [0x0B07] ∧
    (regs (exec (.setScanLimit 8) (ready refParams 4))).map (·.scanLimit) = some (some 4) ∧
    words (exec (.setScanLimit 8) (ready refParams 4)) = some [] ∧
    (regs (exec (.setScanLimit 1) (ready refParams 4))).map (·.scanLimit) = some (some 1) := by
  decide

/-- S10: shutdown is inverted on the wire. -/
theorem test_shutdown_S10 :
    words (exec (.shutdown true) (ready refParams 4)) = some [0x0C00] ∧
    words (exec (.shutdown false) (ready refParams 4)) = some [0x0C01] ∧
    (regs (exec (.shutdown true) (ready refParams 4))).map (·.shutdownF) = some (some true) := by
  decide

theorem test_displayTest_T28_T29 :
    words (exec (.displayTest true) (ready refParams 4)) = some [0x0F01] ∧
    words (exec (.displayTest false) (ready refParams 4)) = some [0x0F00] ∧
    (regs (exec (.displayTest true) (ready refParams 4))).map (·.testF) = some (some true) := by
  decide

/-- R134. -/
theorem test_decodeMode :
    words (exec .decodeMode (fresh refParams)) = some [0x0900] ∧
    (regs (exec .decodeMode (fresh refParams))).map (·.decodeMode) = some (some .disabled) := by
  decide

/-! ## Digit operations (3.5) -/

theorem test_clearDigit_T60_T61_T62_T63 :
    words (exec (.clearDigit 0) (ready refParams 8)) = some [0x0100] ∧
    words (exec (.clearDigit 7) (ready refParams 8)) = some [0x0800] ∧
    refusal (exec (.clearDigit 8) (ready refParams 8)) = some .cleardigitIndexOutOfRange ∧
    refusal (exec (.clearDigit (-1)) (ready refParams 8)) = some .cleardigitIndexOutOfRange := by
  decide

theorem test_setDigit_T65_T66_T72 :
    words (exec (.setDigit 7 15 true) (ready refParams 8)) = some [0x08C7] ∧
    words (exec (.setDigit 3 8 true) (ready refParams 8)) = some [0x04FF] ∧
    words (exec (.setDigit 5 2 false) (ready refParams 4)) = some [0x066D] := by
  decide

theorem test_setDigit_rejected_T67_T70 :
    words (exec (.setDigit 8 1 false) (ready refParams 8)) = some [] ∧
    words (exec (.setDigit 0 (-1) true) (ready refParams 8)) = some [] ∧
    words (exec (.setDigit 0 16 false) (ready refParams 8)) = some [] := by
  decide

theorem test_setChar_T74_T76_T78_T83 :
    words (exec (.setChar 1 65 true) (ready refParams 8)) = some [0x02F7] ∧
    words (exec (.setChar 1 32 true) (ready refParams 8)) = some [0x0280] ∧
    words (exec (.setChar 1 47 true) (ready refParams 8)) = some [0x0280] ∧
    words (exec (.setChar 1 (-3) true) (ready refParams 8)) = some [0x0280] := by
  decide

theorem test_setChar_refusals_T84_T85_T88 :
    refusal (exec (.setChar 1 91 false) (ready refParams 8)) = some .charpatternPastTableEnd ∧
    refusal (exec (.setChar 1 128 false) (ready refParams 8)) = some .charpatternNotAscii ∧
    refusal (exec (.setChar 8 200 false) (ready refParams 8)) = some .setcharIndexOutOfRange := by
  decide

/-! ## DISPLAYNUMBER (3.6) -/

theorem test_displayNumber_T93_T91_S6 :
    words (exec (.displayNumber 100 false) (ready refParams 4)) = some [0x017E, 0x027E, 0x0330, 0x0400] ∧
    words (exec (.displayNumber 10000 false) (ready refParams 4)) = some [0x017E, 0x0200, 0x0300, 0x0400] ∧
    words (exec (.displayNumber 34 true) (ready refParams 4)) = some [0x0133, 0x0279, 0x037E, 0x047E] := by
  decide

theorem test_displayNumber_T98_T106 :
    words (exec (.displayNumber 0 false) (ready otherParams 4)) = some [0x0100, 0x0200, 0x0300, 0x0400] ∧
    words (exec (.displayNumber 12345678 false) (ready refParams 8)) =
      some [0x017F, 0x0270, 0x035F, 0x045B, 0x0533, 0x0679, 0x076D, 0x0830] := by
  decide

/-! ## DISPLAYTIME and DISPLAYMINUTES (3.3, 3.4) -/

theorem test_displayTime_T31_T33_T32_T43 :
    words (exec (.displayTime 0 5) (ready refParams 4)) = some [0x015B, 0x027E, 0x037E, 0x047E] ∧
    words (exec (.displayTime (-1) 7) (ready refParams 4)) = some [0x0170, 0x027E, 0x0300, 0x0400] ∧
    words (exec (.displayTime 23 59) (ready refParams 4)) = some [0x017B, 0x025B, 0x0379, 0x046D] ∧
    words (exec (.displayTime 99 99) (ready refParams 8)) = some [] := by
  decide

theorem test_displayTime_refusals_T38_T40_T41 :
    refusal (exec (.displayTime 24 0) (ready refParams 4)) = some .displaytimeOutsideClockRange ∧
    refusal (exec (.displayTime 12 (-1)) (ready refParams 4)) = some .displaytimeOutsideClockRange ∧
    refusal (exec (.displayTime (-5) 60) (ready refParams 4)) = some .displaytimeOutsideClockRange := by
  decide

theorem test_displayMinutes_S8_T48_T49_T50 :
    words (exec (.displayMinutes 1500) (ready refParams 4)) = some [0x017E, 0x027E, 0x0330, 0x047E] ∧
    words (exec (.displayMinutes 1439) (ready refParams 4)) = some [0x017B, 0x025B, 0x0379, 0x046D] ∧
    words (exec (.displayMinutes 1440) (ready refParams 4)) = some [0x017E, 0x027E, 0x037E, 0x047E] ∧
    words (exec (.displayMinutes 2941) (ready refParams 4)) = some [0x0130, 0x027E, 0x0330, 0x047E] := by
  decide

theorem test_displayMinutes_T51_T53 :
    refusal (exec (.displayMinutes (-1)) (ready refParams 4)) = some .displayminutesNegative ∧
    words (exec (.displayMinutes (-1)) (ready refParams 8)) = some [] := by
  decide

/-! ## Lookups (3.1) -/

theorem test_digitPattern_T4_T5_T6 :
    answers (exec (.digitPattern 15) (fresh refParams)) = some [0x47] ∧
    refusal (exec (.digitPattern 16) (fresh refParams)) = some .digitpatternValueOutOfRange ∧
    refusal (exec (.digitPattern (-1)) (fresh refParams)) = some .digitpatternValueOutOfRange := by
  decide

theorem test_charPattern_T9_T10_T13_T15 :
    answers (exec (.charPattern 47) (fresh refParams)) = some [0x00] ∧
    answers (exec (.charPattern 48) (fresh refParams)) = some [0x7E] ∧
    answers (exec (.charPattern 65) (fresh refParams)) = some [0x77] ∧
    answers (exec (.charPattern 90) (fresh refParams)) = some [0x00] := by
  decide

theorem test_charPattern_T16_T17_T18_T19 :
    refusal (exec (.charPattern 91) (fresh refParams)) = some .charpatternPastTableEnd ∧
    refusal (exec (.charPattern 127) (fresh refParams)) = some .charpatternPastTableEnd ∧
    refusal (exec (.charPattern 128) (fresh refParams)) = some .charpatternNotAscii ∧
    refusal (exec (.charPattern (-1)) (fresh refParams)) = some .charpatternNotAscii := by
  decide

/-! ## Memory, the channel, the step -/

/-- R53: the last write stands; R60: the addresses are the opcodes; the list stays sorted. -/
theorem test_chip_registers :
    Memory.write [(1, 0x7E), (12, 0x01)] 2 0x30 = [(1, 0x7E), (2, 0x30), (12, 0x01)] ∧
    Memory.write [(1, 0x7E), (12, 0x01)] 12 0x00 = [(1, 0x7E), (12, 0x00)] ∧
    Memory.read [(1, 0x7E), (12, 0x01)] 12 = some 0x01 ∧ Memory.read [(1, 0x7E), (12, 0x01)] 2 = none ∧
    opcodeAddress (.digit 7) = 8 ∧ opcodeAddress .displayTest = 15 := by
  decide

/-- R241: the Commands after the one that never completes do not appear, and the block takes no further request. -/
theorem test_hung_transfer :
    words (exec (.displayNumber 34 false) (readyHangs 4 2)) = some [0x0133, 0x0279] ∧
    words (step ((readyHangs 4 0).present (.request 32 0x5 false 0 0))) = some [] ∧
    words (step { (ready refParams 4).present (.request 32 0x5 false 0 0) with blocked := true }) = some [] := by
  decide

/-- R11, R90: one request a step, oldest first; a reserved code is refused. -/
theorem test_step :
    words (step ((ready refParams 4).withFetchWord 8 0x5)) = some [0x0100] ∧
    words (step ((ready refParams 4).withFetchWord 16 0x08C7)) = some [0x08C7] ∧
    refusal (step ((ready refParams 4).withFetchWord 8 0xE)) = some .reservedRequest ∧
    refusal (step { ready refParams 4 with secondOwner := true, requests := [.request 32 0x5 false 0 0] }) =
      some .secondOwner := by
  decide

/-- R38, R235; the model's own counter goes on (log 27). -/
theorem test_power_cycle :
    (ready refParams 4).powerCycle = fresh refParams ∧
    { ready refParams 4 with draws := 3 }.powerCycle = { fresh refParams with draws := 3 } := by
  decide

/-! ## Witnesses: for each obligation with hypotheses, a state and operands that meet them together -/

/-- The fixture meets R112 and R113. -/
theorem test_witness_params : refParams.wf ∧ otherParams.wf := by decide

/-- A channel that completes. -/
theorem canTransfer_completes {s : State} (hb : s.blocked = false) (hc : s.channel = .completes) (k : Nat) :
    s.CanTransfer k := ⟨hb, fun m hm => by rw [hc] at hm; cases hm⟩

/-- A channel that completes exactly as many transfers as are asked for. -/
theorem canTransfer_readyHangs (n : Fin 9) (k : Nat) : (readyHangs n k).CanTransfer k :=
  ⟨rfl, fun m hm => by
    simp only [readyHangs, Channel.hangsAfter.injEq] at hm
    omega⟩

theorem canTransfer_ready (p : Params) (n : Fin 9) (k : Nat) : (ready p n).CanTransfer k :=
  canTransfer_completes rfl rfl k

theorem canTransfer_fresh (p : Params) (k : Nat) : (fresh p).CanTransfer k := canTransfer_completes rfl rfl k

theorem accepts_ready (p : Params) (n : Fin 9) : (ready p n).Accepts := ⟨rfl, rfl⟩

/-- O1, at both ends of an operand and at the least width, and O2, O3. -/
theorem test_witness_encoding :
    (12 ≤ 12 ∧ WellFormed 12 (.setDigit 2047 (-2048) true) = true) ∧ 12 ≤ 32 ∧
    (WellFormed 32 (.setDigit 2147483647 (-2147483648) true) = true ∧
      Instr.setDigit 2147483647 (-2147483648) true ≠ .decodeMode) ∧
    decodeCommand 0x0B08 = .ok (.scanLimit 8) ∧
    decodeRequest 0xC true 0x80000000#32 1 = .ok (.charPattern (-2147483648)) ∧
    decodeFrame (.command 0x0F00) = .ok (.displayTestCmd false) ∧
    decodeFrame (.request 12 0x3 true 0 0) = .ok (.shutdown true) := by
  decide

/-- O5, at both ends of the reserved codes. -/
theorem test_witness_RequestCodesAndReservedSpace :
    0xD ≤ (0xD : ReqOp).toNat ∧ 0xD ≤ (0xF : ReqOp).toNat ∧
    ((fresh refParams).present (.request 32 0xD false 0 0)).blocked = false ∧
    ((fresh refParams).present (.request 32 0xD false 0 0)).secondOwner = false ∧
    ((fresh refParams).present (.request 32 0xD false 0 0)).requests = [.request 32 0xD false 0 0] := by
  decide

/-- O6: opcodes at the ends of their ranges, and the bytes beside them that are none. -/
theorem test_witness_OpcodesAreTheClosedSet :
    opcodeByte (.digit 0) = 0x01 ∧ opcodeByte .shutdown = 0x0C ∧ opcodeByte .displayTest = 0x0F ∧
    opcodeByte (.digit 7) = opcodeByte (.digit 7) := by
  decide

/-- O8, at the largest data of each kind. -/
theorem test_witness_LegalCommandReadsBackAndRuns :
    (commandLegal (ready refParams 4).params ⟨.scanLimit, 0x07⟩ = true ∧
      commandLegal (ready otherParams 8).params ⟨.scanLimit, 0x08⟩ = true ∧
      commandLegal (ready refParams 4).params ⟨.intensity, 0x0F⟩ = true ∧
      commandLegal (ready refParams 4).params ⟨.digit 7, 0xFF⟩ = true) ∧
    (ready refParams 4).secondOwner = false ∧ (ready refParams 4).CanTransfer 1 ∧
    (readyHangs 4 1).secondOwner = false ∧ (readyHangs 4 1).CanTransfer 1 :=
  ⟨by decide, rfl, canTransfer_ready .., rfl, canTransfer_readyHangs ..⟩

/-- O9 and O10. -/
theorem test_witness_step :
    (((ready refParams 4).present (.request 32 0x5 false 7 0)).blocked = false ∧
      ((ready refParams 4).present (.request 32 0x5 false 7 0)).requests = .request 32 0x5 false 7 0 :: [] ∧
      decodeFrame (.request 32 0x5 false 7 0) = .ok (.clearDigit 7)) ∧
    (ready refParams 4).blocked = false ∧ (ready refParams 4).params.operandWidth = 32 ∧
    decodeTableWord 8 0xC = some (.charPattern 0) ∧
    decodeFrame (frameOfTableWord (ready refParams 4).params.operandWidth 8 0xC) = .ok (.charPattern 0) := by
  decide

/-- O11, both clauses. -/
theorem test_witness_StuckAndIdleBlockStays :
    ({ ready refParams 4 with blocked := true } : State).blocked = true ∧ (ready refParams 4).requests = [] :=
  ⟨rfl, rfl⟩

/-- O12 to O14, with a channel that completes exactly the one transfer; of O13 every scan-limit range at its
ends. -/
theorem test_witness_commands :
    (readyHangs 4 1).secondOwner = false ∧ (readyHangs 4 1).CanTransfer 1 ∧
    ((7#4).toNat ≤ 7 ∨ ((7#4).toNat = 8 ∧ (readyHangs 4 1).params.initScanRaw = true)) ∧
    ((8#4).toNat = 8 ∧ (ready otherParams 8).params.initScanRaw = true) ∧
    (8 < (9#4).toNat ∨ ((9#4).toNat = 8 ∧ (readyHangs 4 1).params.initScanRaw = false)) ∧
    ((8#4).toNat = 8 ∧ (readyHangs 4 1).params.initScanRaw = false) :=
  ⟨rfl, canTransfer_readyHangs .., by decide, by decide, by decide, by decide⟩

/-- O15 and O16: the accepted operands and the rejected ones, at the ends of their ranges. -/
theorem test_witness_levels :
    (readyHangs 4 1).Accepts ∧ (readyHangs 4 1).CanTransfer 1 ∧
    (0 : Int) = ((0 : Fin 16).val : Int) ∧ (15 : Int) = ((15 : Fin 16).val : Int) ∧
    ((-1 : Int) < 0 ∨ 15 < (-1 : Int)) ∧ ((16 : Int) < 0 ∨ 15 < (16 : Int)) ∧
    (0 : Int) = ((0 : Fin 8).val : Int) ∧ (7 : Int) = ((7 : Fin 8).val : Int) ∧
    ((-1 : Int) < 0 ∨ 7 < (-1 : Int)) ∧ ((8 : Int) < 0 ∨ 7 < (8 : Int)) :=
  ⟨⟨rfl, rfl⟩, canTransfer_readyHangs .., by decide⟩

/-- O17 and O18. -/
theorem test_witness_switches : (readyHangs 4 1).Accepts ∧ (readyHangs 4 1).CanTransfer 1 :=
  ⟨⟨rfl, rfl⟩, canTransfer_readyHangs ..⟩

/-- O19, O20 and O22: indexes and values at the ends of their ranges, and just outside. -/
theorem test_witness_digits :
    (ready refParams 8).Accepts ∧ (ready refParams 8).CanTransfer 1 ∧
    (0 : Int) = ((0 : Fin 8).val : Int) ∧ (7 : Int) = ((7 : Fin 8).val : Int) ∧
    (15 : Int) = ((15 : Fin 16).val : Int) ∧ ((8 : Int) < 0 ∨ 7 < (8 : Int)) ∧ ((-1 : Int) < 0 ∨ 7 < (-1 : Int)) ∧
    ((0 : Int) < 0 ∨ 7 < (0 : Int) ∨ (16 : Int) < 0 ∨ 15 < (16 : Int)) ∧
    -- the four ranges of a character: below 48, in the table, past its end, no ASCII
    ((47 : Int) < 48) ∧
    ((90 : Int) = 48 + ((42 : Nat) : Int) ∧ (90 : Int) ≤ 127 ∧
      (ready refParams 8).params.charRom[(42 : Nat)]? = some 0x00) ∧
    ((48 : Int) = 48 + ((0 : Nat) : Int) ∧ (48 : Int) ≤ 127 ∧
      (ready refParams 8).params.charRom[(0 : Nat)]? = some 0x7E) ∧
    (48 + ((ready refParams 8).params.charLen : Int) ≤ 91 ∧ (91 : Int) ≤ 127) ∧
    (48 + ((ready refParams 8).params.charLen : Int) ≤ 127) ∧ (127 : Int) < 128 :=
  ⟨⟨rfl, rfl⟩, canTransfer_ready .., by decide⟩

/-- O21. -/
theorem test_witness_SetDigitDataIsNeverBlank :
    (ready refParams 8).params.wf ∧ ∃ t, exec (.setDigit 7 15 true) (ready refParams 8) = .next t :=
  ⟨by decide, _, rfl⟩

/-- O23: both kinds of answer occur, and states with the same ROMs may differ in the other parameters. -/
theorem test_witness_DigitWritesAreIndependent :
    ((ready refParams 8).params.digitRom = refDigitRom ∧ (ready refParams 8).params.charRom = testCharRom) ∧
    ((ready otherParams 4).params.digitRom = refDigitRom ∧ (ready otherParams 4).params.charRom = testCharRom) ∧
    (ready refParams 8).params ≠ (ready otherParams 4).params ∧
    (ready refParams 8).Accepts ∧ (ready refParams 8).CanTransfer 1 ∧
    (ready otherParams 4).Accepts ∧ (ready otherParams 4).CanTransfer 1 ∧
    words (exec (.setChar 1 65 false) (ready refParams 8)) = some [0x0277] ∧
    refusal (exec (.clearDigit 8) (ready refParams 8)) = some .cleardigitIndexOutOfRange :=
  ⟨⟨rfl, rfl⟩, ⟨rfl, rfl⟩, by decide, ⟨rfl, rfl⟩, canTransfer_ready .., ⟨rfl, rfl⟩, canTransfer_ready .., by decide⟩

/-- O24, O25 and the first clause of O31, on 1 and on 8 digits: the largest value shown, the least and a negative
one that fall back. -/
theorem test_witness_numbers :
    (readyHangs 8 8).Accepts ∧ (readyHangs 8 8).dev.numDigits = some 8 ∧ (readyHangs 8 8).CanTransfer (8 : Fin 9).val ∧
    ((99999999 : Int) = ((99999999 : Nat) : Int) ∧ 99999999 < 10 ^ (8 : Fin 9).val) ∧
    (((100000000 : Int) < 0 ∨ 10 ^ (8 : Fin 9).val ≤ (100000000 : Int)) ∧ 0 = 0) ∧
    (((-1 : Int) < 0 ∨ 10 ^ (8 : Fin 9).val ≤ (-1 : Int)) ∧ 0 = 0) ∧
    (readyHangs 1 1).dev.numDigits = some 1 ∧ (readyHangs 1 1).CanTransfer (1 : Fin 9).val ∧
    ((9 : Int) = ((9 : Nat) : Int) ∧ 9 < 10 ^ (1 : Fin 9).val) ∧
    ((10 : Int) < 0 ∨ 10 ^ (1 : Fin 9).val ≤ (10 : Int)) :=
  ⟨⟨rfl, rfl⟩, rfl, canTransfer_readyHangs .., by decide, by decide, by decide, rfl, canTransfer_readyHangs ..,
    by decide, by decide⟩

/-- O26, at the ends: 1 and 99999999. -/
theorem test_witness_SigDigitsIsTheLeastLength :
    (0 < 1 ∧ 1 < 10 ^ 8 ∧ sigDigits .blank 1 = 1) ∧ (0 < 99999999 ∧ 99999999 < 10 ^ 8 ∧ sigDigits .digit 99999999 = 8) ∧
    sigDigits .digit 10 = 2 := by
  decide

/-- O27 and O28: an injective DIGIT_ROM, a number, its run. -/
theorem test_witness_ShownNumberIsDeterminedByItsCommands :
    (ready refParams 4).Accepts ∧ (ready refParams 4).dev.numDigits = some 4 ∧
    (ready refParams 4).CanTransfer (4 : Fin 9).val ∧ Function.Injective (ready refParams 4).params.digitRom.get ∧
    9999 < 10 ^ (4 : Fin 9).val ∧ ∃ t, exec (.displayNumber ((9999 : Nat) : Int) true) (ready refParams 4) = .next t := by
  refine ⟨⟨rfl, rfl⟩, rfl, canTransfer_ready .., ?_, by decide, _, rfl⟩
  have h : ∀ a b : Fin 16, refDigitRom.get a = refDigitRom.get b → a = b := by decide
  exact fun a b => h a b

/-- O29, the second clause of O31, and O30: every clause at the ends of its range. -/
theorem test_witness_times :
    (readyHangs 4 4).Accepts ∧ (readyHangs 4 4).dev.numDigits = some 4 ∧ (readyHangs 4 4).CanTransfer 4 ∧
    ((readyHangs 8 4).dev.numDigits = some 8 ∧ (8 : Fin 9) ≠ 4) ∧
    ((-1 : Int) < 0 ∨ 59 < (-1 : Int) ∨ 23 < (0 : Int)) ∧ ((60 : Int) < 0 ∨ 59 < (60 : Int) ∨ 23 < (0 : Int)) ∧
    ((0 : Int) < 0 ∨ 59 < (0 : Int) ∨ 23 < (24 : Int)) ∧
    ((59 : Int) = ((59 : Nat) : Int) ∧ 59 ≤ 59 ∧ (23 : Int) = ((23 : Nat) : Int) ∧ 23 ≤ 23) ∧ (-1 : Int) < 0 ∧
    (0 ≤ (59 : Int) ∧ (59 : Int) ≤ 59 ∧ (23 : Int) ≤ 23) ∧ (1440 : Int) = ((1440 : Nat) : Int) :=
  ⟨⟨rfl, rfl⟩, rfl, canTransfer_readyHangs .., by decide⟩

/-- O32. -/
theorem test_witness_NumbersAndTimesNeverLightThePoint :
    (ready refParams 4).params.wf ∧ (∃ t, exec (.displayNumber 34 false) (ready refParams 4) = .next t) ∧
    (∃ t, exec (.displayTime (-1) 7) (ready refParams 4) = .next t) ∧
    ∃ t, exec (.displayMinutes 1500) (ready refParams 4) = .next t :=
  ⟨by decide, ⟨_, rfl⟩, ⟨_, rfl⟩, ⟨_, rfl⟩⟩

/-- O33 and O34, before construction. -/
theorem test_witness_lookups :
    (fresh refParams).secondOwner = false ∧ (fresh refParams).blocked = false ∧
    (15 : Int) = ((15 : Fin 16).val : Int) ∧ ((-1 : Int) < 0 ∨ 15 < (-1 : Int)) ∧ ((16 : Int) < 0 ∨ 15 < (16 : Int)) ∧
    (0 ≤ (47 : Int) ∧ (47 : Int) < 48) ∧
    ((90 : Int) = 48 + ((42 : Nat) : Int) ∧ (90 : Int) ≤ 127 ∧ (fresh refParams).params.charRom[(42 : Nat)]? = some 0x00) ∧
    (48 + ((fresh refParams).params.charLen : Int) ≤ 91 ∧ (91 : Int) ≤ 127) ∧
    ((-1 : Int) < 0 ∨ 127 < (-1 : Int)) ∧ ((128 : Int) < 0 ∨ 127 < (128 : Int)) := by
  decide

/-- O35 to O37: a fresh block, 1, 7 and 8 digits, and each refused count; and the second CONSTRUCT. -/
theorem test_witness_construct :
    (fresh refParams).secondOwner = false ∧ (fresh refParams).constructed = false ∧ (fresh refParams).CanTransfer 5 ∧
    (ready refParams 4).constructed = true ∧ ((0 : Int) < 1 ∨ 8 < (0 : Int)) ∧ ((9 : Int) < 1 ∨ 8 < (9 : Int)) ∧
    ((1 : Int) = ((1 : Fin 9).val : Int) ∧ 1 ≤ (1 : Fin 9).val ∧ (1 : Fin 8).val = (1 : Fin 9).val) ∧
    ((7 : Int) = ((7 : Fin 9).val : Int) ∧ 1 ≤ (7 : Fin 9).val ∧ (7 : Fin 8).val = (7 : Fin 9).val) ∧
    1 ≤ (8 : Fin 9).val :=
  ⟨rfl, rfl, canTransfer_fresh .., by decide⟩

/-- O38. -/
theorem test_witness_RequestBeforeConstructionIsRefused :
    (fresh refParams).secondOwner = false ∧ (fresh refParams).constructed = false ∧ (fresh refParams).blocked = false ∧
    47 < 48 := by
  decide

/-- O39. -/
theorem test_witness_SecondOwnerIsRefusedFirst :
    let s : State := { ready refParams 4 with secondOwner := true, requests := [.request 32 0x3 true 0 0] }
    s.secondOwner = true ∧ s.blocked = false ∧ s.requests = .request 32 0x3 true 0 0 :: [] := by
  decide

/-- O40, both clauses. -/
theorem test_witness_SilentRejectionChangesNothing :
    (ready refParams 8).Accepts ∧ ((16 : Int) < 0 ∨ 15 < (16 : Int)) ∧ ((8 : Int) < 0 ∨ 7 < (8 : Int)) ∧
    ((ready refParams 8).dev.numDigits = some 8 ∧ (8 : Fin 9) ≠ 4) ∧ (fresh refParams).secondOwner = false ∧
    (fresh refParams).constructed = false ∧ (fresh refParams).params.initScanRaw = false ∧
    (fresh refParams).CanTransfer 4 :=
  ⟨⟨rfl, rfl⟩, by decide, by decide, by decide, rfl, rfl, rfl, canTransfer_fresh ..⟩

/-- O41 to O46: each frame's instruction answers a next state, and where it may also be rejected, on such an
operand too. -/
theorem test_witness_frames :
    (∃ t, exec (.digit7 true 0x47) (ready refParams 4) = .next t) ∧
    (∃ t, exec (.scanLimit 7) (ready refParams 4) = .next t) ∧
    (∃ t, exec (.setIntensity 15) (ready refParams 4) = .next t) ∧
    (∃ t, exec (.setIntensity 16) (ready refParams 4) = .next t) ∧
    (∃ t, exec (.setScanLimit 0) (ready refParams 4) = .next t) ∧
    (∃ t, exec (.shutdown true) (ready refParams 4) = .next t) ∧
    (∃ t, exec (.displayTest true) (ready refParams 4) = .next t) ∧
    (∃ t, exec .decodeMode (ready refParams 4) = .next t) ∧
    (∃ t, exec (.clearDigit 7) (ready refParams 4) = .next t) ∧
    (∃ t, exec (.setDigit 8 0 false) (ready refParams 4) = .next t) ∧
    (∃ t, exec (.setChar 0 90 true) (ready refParams 4) = .next t) ∧
    ((ready refParams 4).dev.numDigits = some 4 ∧ ∃ t, exec (.displayNumber 34 false) (ready refParams 4) = .next t) ∧
    (∃ t, exec (.displayTime 23 59) (ready refParams 4) = .next t) ∧
    (∃ t, exec (.displayMinutes 1500) (ready refParams 4) = .next t) ∧
    (∃ t, exec (.digitPattern 15) (ready refParams 4) = .next t) ∧
    (∃ t, exec (.charPattern 90) (ready refParams 4) = .next t) ∧
    ∃ t, exec (.construct 5 8) (fresh refParams) = .next t :=
  ⟨⟨_, rfl⟩, ⟨_, rfl⟩, ⟨_, rfl⟩, ⟨_, rfl⟩, ⟨_, rfl⟩, ⟨_, rfl⟩, ⟨_, rfl⟩, ⟨_, rfl⟩, ⟨_, rfl⟩, ⟨_, rfl⟩, ⟨_, rfl⟩,
    ⟨rfl, _, rfl⟩, ⟨_, rfl⟩, ⟨_, rfl⟩, ⟨_, rfl⟩, ⟨_, rfl⟩, ⟨_, rfl⟩⟩

/-- A block constructed with 4 digits, with the Commands of R231 sent and one request waiting. -/
def running : State :=
  { ready refParams 4 with
    cmd := [⟨.shutdown, 0x01⟩, ⟨.displayTest, 0x00⟩, ⟨.intensity, 0x08⟩, ⟨.scanLimit, 0x04⟩, ⟨.decodeMode, 0x00⟩]
    chip := [(9, 0x00), (10, 0x08), (11, 0x04), (12, 0x01), (15, 0x00)]
    requests := [.request 32 0x1 false 15 0] }

theorem running_inv : running.Inv where
  paramsOk := test_witness_params.1
  chipCanonical := by decide
  chipHoldsLast := by
    intro op
    cases op with
    | digit i =>
      have h : ∀ i : Fin 8, running.chip.read (opcodeAddress (.digit i)) = lastSent running.cmd (.digit i) := by decide
      exact h i
    | _ => decide
  chipOnlyRegisters := by
    intro a h
    by_cases h9 : a = 9
    · exact ⟨.decodeMode, h9⟩
    by_cases h10 : a = 10
    · exact ⟨.intensity, h10⟩
    by_cases h11 : a = 11
    · exact ⟨.scanLimit, h11⟩
    by_cases h12 : a = 12
    · exact ⟨.shutdown, h12⟩
    by_cases h15 : a = 15
    · exact ⟨.displayTest, h15⟩
    exact absurd (by simp [running, Memory.read, h9, h10, h11, h12, h15]) h
  commandsLegal := by decide
  digitCountOk := by decide
  registersExist := by decide

theorem running_life : running.Life where
  onlyRequests := by decide
  decodeOnce := by decide
  silentBefore := by decide
  shadows := by
    intro _ _
    refine ⟨by decide, by decide, by decide, by decide, ?_⟩
    intro d hd
    have h : lastSent running.cmd .scanLimit = some 0x04 := by decide
    rw [h] at hd
    obtain rfl := Option.some.inj hd
    exact .inr (by decide)

/-- O48 to O51, and the last clause of O52. -/
theorem test_witness_invariants :
    running.Inv ∧ running.Life ∧ running.constructed = true ∧ ∃ t, step running = .next t :=
  ⟨running_inv, running_life, rfl, _, rfl⟩

/-- O52, its first two clauses. -/
theorem test_witness_DigitCountIsWrittenByConstructAlone :
    ((∀ cs n, Instr.shutdown true ≠ .construct cs n) ∧ ∃ t, exec (.shutdown true) (ready refParams 4) = .next t) ∧
    (fresh refParams).blocked = false ∧ ∃ t, exec (.construct 5 4) (fresh refParams) = .next t :=
  ⟨⟨by simp, _, rfl⟩, rfl, _, rfl⟩

/-- O53: two states that differ in a register no rule reads and in the operand width. -/
theorem test_witness_OnlyTheDigitCountIsRead :
    SameButUnread running
      { running with
        params := { refParams with operandWidth := 12 }
        dev := { running.dev with intensity := some 3 }
        chip := [] } :=
  ⟨rfl, rfl, rfl, rfl, rfl, rfl, rfl, rfl, rfl⟩

/-- O54, both clauses: the third transfer of four hangs. -/
theorem test_witness_HungTransferStopsTheRequestThere :
    (∃ t, (readyHangs 4 2).blocked = false ∧ exec (.displayNumber 34 false) (readyHangs 4 2) = .next t ∧
      t.blocked = true) ∧
    ∃ t, (ready refParams 4).channel = .completes ∧ exec (.shutdown true) (ready refParams 4) = .next t :=
  ⟨⟨_, rfl, rfl, rfl⟩, _, rfl, rfl⟩

end Sys2Proof.Tests
end

section
/-! PROOFS, family 10_state: the parameters of the block (R29). -/

namespace Sys2Proof.Machine

open Sys2Proof

/-- An instruction is performed as a plan, and no primitive of a plan writes a parameter. -/
theorem exec_params {i : Instr} {s t : State} (h : exec i s = .next t) : t.params = s.params := by
  obtain ⟨_, as, _, rfl⟩ := exec_next h
  exact (perform_static as s).1

/-- Taking the frame off the queue and performing its instruction both keep the parameters. -/
theorem step_params {s t : State} (h : step s = .next t) : t.params = s.params := by
  obtain rfl | ⟨f, rest, i, _, _, _, hexec⟩ := step_next h
  · rfl
  · calc t.params = (s.takeFrame rest).params := exec_params hexec
      _ = s.params := s.takeFrame_params rest

/-- Settles O50: both ROMs are parameters, and a step keeps the parameters. -/
theorem romsNeverChange : Obligations.RomsNeverChange := by
  intro s t h
  have hp : t.params = s.params := step_params h
  exact ⟨congrArg Params.digitRom hp, congrArg Params.charRom hp, hp⟩

end Sys2Proof.Machine
end

section
/-! PROOFS, family 30_encoding: the opcode bytes (R81, R82) and the digit-write data byte (R83). -/

namespace Sys2Proof.Machine

open Sys2Proof

/-! ## The opcode bytes -/

@[simp] theorem opcodeByte_digit_toNat (i : Fin 8) : (opcodeByte (.digit i)).toNat = i.val + 1 := by
  have hi : i.val < 8 := i.isLt
  exact Nat.mod_eq_of_lt (by omega)

/-- The closed set of R81: the eight digit positions give 0x01 to 0x08, the other registers the rest. -/
theorem exists_opcodeByte_iff (b : Byte) :
    (∃ op, opcodeByte op = b) ↔ (1 ≤ b.toNat ∧ b.toNat ≤ 0x0C) ∨ b.toNat = 0x0F := by
  constructor
  · rintro ⟨op, rfl⟩
    cases op with
    | digit i =>
      have hi : i.val < 8 := i.isLt
      rw [opcodeByte_digit_toNat]
      omega
    | decodeMode | intensity | scanLimit | shutdown | displayTest => decide
  · intro h
    by_cases hdigit : 1 ≤ b.toNat ∧ b.toNat ≤ 8
    · refine ⟨.digit ⟨b.toNat - 1, by omega⟩, BitVec.eq_of_toNat_eq ?_⟩
      rw [opcodeByte_digit_toNat]
      exact Nat.sub_add_cancel hdigit.1
    · have hother : b.toNat = 0x09 ∨ b.toNat = 0x0A ∨ b.toNat = 0x0B ∨ b.toNat = 0x0C ∨ b.toNat = 0x0F := by
        omega
      obtain h9 | hA | hB | hC | hF := hother
      · exact ⟨.decodeMode, BitVec.eq_of_toNat_eq h9.symm⟩
      · exact ⟨.intensity, BitVec.eq_of_toNat_eq hA.symm⟩
      · exact ⟨.scanLimit, BitVec.eq_of_toNat_eq hB.symm⟩
      · exact ⟨.shutdown, BitVec.eq_of_toNat_eq hC.symm⟩
      · exact ⟨.displayTest, BitVec.eq_of_toNat_eq hF.symm⟩

/-- Settles O6: two equal opcode bytes are one address of the chip register space, and the addresses are apart. -/
theorem opcodesAreTheClosedSet : Obligations.OpcodesAreTheClosedSet :=
  ⟨opcodeByte_digit_toNat, exists_opcodeByte_iff, fun _ _ h => opcodeAddress_injective (congrArg BitVec.toNat h)⟩

/-! ## The digit-write data byte -/

/-- The OR of R83 reaches bit 7 alone. -/
theorem digitData_getLsbD (g : Byte) (dp : Bool) {k : Nat} (hk : k < 8) :
    (digitData g dp).getLsbD k = (g.getLsbD k || (dp && decide (k = 7))) := by
  cases dp with
  | false => simp
  | true =>
    have hpoint : ∀ j, j < 8 → (0x80#8).getLsbD j = decide (j = 7) := by decide
    simp [digitData, hpoint k hk]

theorem digitData_getLsbD_seven (g : Byte) (dp : Bool) : (digitData g dp).getLsbD 7 = (g.getLsbD 7 || dp) := by
  rw [digitData_getLsbD g dp (by decide), decide_eq_true rfl, Bool.and_true]

theorem digitData_getLsbD_of_lt (g : Byte) (dp : Bool) {k : Nat} (hk : k < 7) :
    (digitData g dp).getLsbD k = g.getLsbD k := by
  rw [digitData_getLsbD g dp (by omega), decide_eq_false (by omega), Bool.and_false, Bool.or_false]

/-- R112 (a) clears bit 7 of every DIGIT_ROM entry, which leaves it to the decimal point. -/
theorem digitData_digitRom_getLsbD_seven {p : Params} (hp : p.wf) (v : Fin 16) (dp : Bool) :
    (digitData (p.digitRom.get v) dp).getLsbD 7 = dp := by
  obtain ⟨hdigitRom, _, _⟩ := hp
  obtain ⟨hclear, _⟩ := hdigitRom v
  rw [digitData_getLsbD_seven, hclear, Bool.false_or]

theorem digitFields_getLsbD_seven (p : Bool) (g : BitVec 7) : (digitFields p g).getLsbD 7 = p := by
  simp only [digitFields, BitVec.getLsbD_append, BitVec.getLsbD_ofBool]
  rfl

theorem digitFields_segments (p : Bool) (g : BitVec 7) : (digitFields p g).extractLsb' 0 7 = g :=
  BitVec.extractLsb'_append_eq_right

/-- Settles O7, from the bits of the OR and of the two fields. -/
theorem digitDataByteAssembly : Obligations.DigitDataByteAssembly :=
  ⟨fun g dp => ⟨digitData_getLsbD_seven g dp, fun _ hk => digitData_getLsbD_of_lt g dp hk⟩, rfl,
    fun _ v dp hp => digitData_digitRom_getLsbD_seven hp v dp,
    fun p g => ⟨digitFields_getLsbD_seven p g, digitFields_segments p g⟩⟩

end Sys2Proof.Machine
end

section
/-! PROOFS, family 41_config_ops: SETINTENSITY, SETSCANLIMIT, SHUTDOWN and DISPLAYTEST (R130 to R133, R135). -/

namespace Sys2Proof.Machine

open Sys2Proof

/-! ## The plan of each operand -/

@[simp] theorem planSetIntensity_val (l : Fin 16) :
    planSetIntensity (l.val : Int) = .ok [.writeIntensity l, .emit ⟨.intensity, rawData l⟩] := by
  simp [planSetIntensity]

theorem planSetIntensity_out {level : Int} (h : level < 0 ∨ 15 < level) : planSetIntensity level = Plan.nop := by
  have hnone : inRange? 16 level = none := inRange?_eq_none.2 (by omega)
  simp [planSetIntensity, hnone]

@[simp] theorem planSetScanLimit_val (l : Fin 8) :
    planSetScanLimit (l.val : Int) = .ok [.writeScanLimit l, .emit ⟨.scanLimit, rawData l⟩] := by
  simp [planSetScanLimit]

theorem planSetScanLimit_out {limit : Int} (h : limit < 0 ∨ 7 < limit) : planSetScanLimit limit = Plan.nop := by
  have hnone : inRange? 8 limit = none := inRange?_eq_none.2 (by omega)
  simp [planSetScanLimit, hnone]

/-- The data byte is the inverse of the flag (R84). -/
theorem planShutdown_eq (enable : Bool) :
    planShutdown enable = .ok [.writeShutdown enable, .emit ⟨.shutdown, if enable then 0x00 else 0x01⟩] := rfl

/-- The data byte is the flag itself (R85). -/
theorem planDisplayTest_eq (enable : Bool) :
    planDisplayTest enable = .ok [.writeTest enable, .emit ⟨.displayTest, if enable then 0x01 else 0x00⟩] := rfl

/-! ## Configuration operations on an accepting block -/

/-- One register write and one Command, as every accepted configuration operation is. -/
theorem exec_write_emit_of_accepts {i : Instr} {s : State} {p : Plan} {a : Action} {c : Command} (hs : s.Accepts)
    (hi : planOf i s = whenConstructed s p) (hp : p = .ok [a, .emit c]) (ha : commandsOf [a, .emit c] = [c])
    (hc : s.CanTransfer 1) : exec i s = .next ((actDone a s).afterCommands [c]) := by
  obtain ⟨howner, hconstructed⟩ := hs
  exact exec_write_emit howner (by rw [hi, whenConstructed_true _ hconstructed, hp]) ha hc

/-- A silent rejection (R201): no primitive is performed. -/
theorem exec_nop_of_accepts {i : Instr} {s : State} {p : Plan} (hs : s.Accepts)
    (hi : planOf i s = whenConstructed s p) (hp : p = Plan.nop) : exec i s = .next s := by
  obtain ⟨howner, hconstructed⟩ := hs
  exact exec_of_plan (as := []) howner (by rw [hi, whenConstructed_true _ hconstructed, hp, Plan.nop])

/-- Settles O15: a level that INTENSITY can hold is written and sent, any other has the empty plan. -/
theorem setIntensityAcceptsZeroToFifteen : Obligations.SetIntensityAcceptsZeroToFifteen := by
  refine ⟨fun _ _ _ _ => rfl, rfl, fun s level hs => ⟨?_, fun hout => ?_⟩⟩
  · rintro l rfl hc
    exact exec_write_emit_of_accepts hs rfl (planSetIntensity_val l) rfl hc
  · exact exec_nop_of_accepts hs rfl (planSetIntensity_out hout)

/-- Settles O16: a limit that SCAN_LIMIT can hold is written and sent, any other has the empty plan; neither plan
reads NUM_DIGITS. -/
theorem setScanLimitAcceptsZeroToSeven : Obligations.SetScanLimitAcceptsZeroToSeven := by
  refine ⟨fun _ _ _ _ => rfl, rfl, fun s limit hs => ⟨?_, fun hout => ?_⟩⟩
  · rintro l rfl hc
    exact exec_write_emit_of_accepts hs rfl (planSetScanLimit_val l) rfl hc
  · exact exec_nop_of_accepts hs rfl (planSetScanLimit_out hout)

/-- Settles O17: the plan has no test, so it is the same write and Command in every accepting state. -/
theorem shutdownIsSentInverted : Obligations.ShutdownIsSentInverted :=
  ⟨fun _ _ _ _ => rfl, rfl, fun _ enable hs hc => exec_write_emit_of_accepts hs rfl (planShutdown_eq enable) rfl hc⟩

/-- Settles O18: as for SHUTDOWN, the plan has no test. -/
theorem displayTestIsSentDirect : Obligations.DisplayTestIsSentDirect :=
  ⟨fun _ _ _ _ => rfl, rfl, fun _ enable hs hc => exec_write_emit_of_accepts hs rfl (planDisplayTest_eq enable) rfl hc⟩

end Sys2Proof.Machine
end

section
/-! PROOFS, family 42_digit_ops: SETDIGIT (R151), and what a digit operation's Commands depend on (R154). -/

namespace Sys2Proof.Machine

open Sys2Proof

/-! ## Operations of Commands alone on an accepting block -/

/-- A plan of Commands alone: they are sent, and nothing else changes. -/
theorem exec_emits_of_accepts {i : Instr} {s : State} {p : Plan} {cs : List Command} (hs : s.Accepts)
    (hi : planOf i s = whenConstructed s p) (hp : p = .ok (cs.map Action.emit)) (hc : s.CanTransfer cs.length) :
    exec i s = .next (s.afterCommands cs) := by
  obtain ⟨howner, hconstructed⟩ := hs
  exact exec_emits howner (by rw [hi, whenConstructed_true _ hconstructed, hp]) hc

/-- A refusing plan: construction and the single owner hold, so the refusal is the plan's own (R205 (e)). -/
theorem exec_refused_of_accepts {i : Instr} {s : State} {p : Plan} {r : Refusal} (hs : s.Accepts)
    (hi : planOf i s = whenConstructed s p) (hp : p = .error r) : exec i s = .refused r := by
  obtain ⟨howner, hconstructed⟩ := hs
  exact exec_of_refusal howner (by rw [hi, whenConstructed_true _ hconstructed, hp])

/-! ## SETDIGIT -/

/-- Settles O20: operands in range give the plan of one Command, any other the empty plan. -/
theorem setDigitSendsTheGlyph : Obligations.SetDigitSendsTheGlyph := by
  refine ⟨fun _ _ _ _ => rfl, fun s index value dp hs => ⟨?_, fun hout => ?_⟩⟩
  · rintro i v rfl rfl hc
    exact exec_emits_of_accepts (cs := [digitCommand i (s.params.digitRom.get v) dp]) hs rfl
      (planSetDigit_val s.params i v dp) hc
  · exact exec_nop_of_accepts hs rfl (planSetDigit_out hout)

/-! ## What a digit operation reads -/

/-- Of the parameters SETDIGIT reads DIGIT_ROM alone. -/
theorem planSetDigit_congr {p q : Params} (h : p.digitRom = q.digitRom) : planSetDigit p = planSetDigit q := by
  unfold planSetDigit
  rw [h]

/-- Of the parameters SETCHAR reads CHAR_ROM alone. -/
theorem planSetChar_congr {p q : Params} (h : p.charRom = q.charRom) : planSetChar p = planSetChar q := by
  unfold planSetChar setCharPattern
  rw [h]

/-- Parameters with the given contents of the ROMs; which the others are does not matter. -/
def Params.withRoms (digitRom : Vector Byte 16) (charRom : List Byte) : Params :=
  { Params.ofConfig with digitRom := digitRom, charRom := charRom }

/-- R154: one answer in every accepting state with these ROMs. -/
def AnsweredByRoms (digitRom : Vector Byte 16) (charRom : List Byte) (i : Instr) : Prop :=
  (∃ cs : List Command, ∀ s : State, s.params.digitRom = digitRom → s.params.charRom = charRom → s.Accepts →
    s.CanTransfer 1 → exec i s = .next (s.afterCommands cs)) ∨
  (∃ r : Refusal, ∀ s : State, s.params.digitRom = digitRom → s.params.charRom = charRom → s.Accepts →
    exec i s = .refused r)

/-- Where the ROMs fix the plan and the plan is at most one Command and nothing else, they fix the answer. -/
theorem answeredByRoms_of_plan {digitRom : Vector Byte 16} {charRom : List Byte} {i : Instr} {p : Plan}
    (hplan : ∀ s : State, s.params.digitRom = digitRom → s.params.charRom = charRom →
      planOf i s = whenConstructed s p)
    (hemits : ∀ as, p = .ok as → as = [] ∨ ∃ c, as = [.emit c]) : AnsweredByRoms digitRom charRom i := by
  cases p with
  | error r => exact .inr ⟨r, fun s hdigit hchar hs => exec_refused_of_accepts hs (hplan s hdigit hchar) rfl⟩
  | ok as =>
    left
    obtain rfl | ⟨c, rfl⟩ := hemits as rfl
    · exact ⟨[], fun s hdigit hchar hs hc =>
        exec_emits_of_accepts hs (hplan s hdigit hchar) rfl (hc.mono (Nat.zero_le 1))⟩
    · exact ⟨[c], fun s hdigit hchar hs hc => exec_emits_of_accepts hs (hplan s hdigit hchar) rfl hc⟩

theorem clearDigit_answeredByRoms (digitRom : Vector Byte 16) (charRom : List Byte) (index : Int) :
    AnsweredByRoms digitRom charRom (.clearDigit index) := by
  refine answeredByRoms_of_plan (p := planClearDigit index) (fun _ _ _ => rfl) fun as h => ?_
  obtain ⟨i, d, _, has⟩ := planClearDigit_ok h
  exact .inr ⟨_, has⟩

theorem setDigit_answeredByRoms (digitRom : Vector Byte 16) (charRom : List Byte) (index value : Int) (dp : Bool) :
    AnsweredByRoms digitRom charRom (.setDigit index value dp) := by
  refine answeredByRoms_of_plan (p := planSetDigit (.withRoms digitRom charRom) index value dp) ?_ fun as h => ?_
  · intro s hdigit _
    rw [← planSetDigit_congr (p := s.params) hdigit]
    rfl
  · obtain has | ⟨i, d, _, has⟩ := planSetDigit_ok h
    · exact .inl has
    · exact .inr ⟨_, has⟩

theorem setChar_answeredByRoms (digitRom : Vector Byte 16) (charRom : List Byte) (index ascii : Int) (dp : Bool) :
    AnsweredByRoms digitRom charRom (.setChar index ascii dp) := by
  refine answeredByRoms_of_plan (p := planSetChar (.withRoms digitRom charRom) index ascii dp) ?_ fun as h => ?_
  · intro s _ hchar
    rw [← planSetChar_congr (p := s.params) hchar]
    rfl
  · obtain ⟨i, d, _, has⟩ := planSetChar_ok h
    exact .inr ⟨_, has⟩

/-- Settles O23, operation by operation: each plan reads at most the ROMs and sends at most one Command. -/
theorem digitWritesAreIndependent : Obligations.DigitWritesAreIndependent := by
  rintro digitRom charRom i (⟨index, rfl⟩ | ⟨index, value, dp, rfl⟩ | ⟨index, ascii, dp, rfl⟩)
  · exact clearDigit_answeredByRoms digitRom charRom index
  · exact setDigit_answeredByRoms digitRom charRom index value dp
  · exact setChar_answeredByRoms digitRom charRom index ascii dp

end Sys2Proof.Machine
end

section
/-! PROOFS, family 60_exceptions: the silent fallback of DISPLAYNUMBER to zero (R202). -/

namespace Sys2Proof.Machine

open Sys2Proof

@[simp] theorem shownValue_zero (n : Nat) : shownValue n 0 = 0 := by
  unfold shownValue
  split <;> rfl

/-- The test of R170 fails on either side of the range, and zero stands in for the number. -/
theorem shownValue_out {n : Nat} {value : Int} (h : value < 0 ∨ 10 ^ n ≤ value) : shownValue n value = 0 :=
  if_pos (by simpa using h)

/-- DISPLAYNUMBER reads its operand only through the value shown. -/
theorem planDisplayNumber_congr (p : Params) {n : Fin 9} {v w : Int} (lz : Bool)
    (h : shownValue n v = shownValue n w) : planDisplayNumber p n v lz = planDisplayNumber p n w lz := by
  unfold planDisplayNumber
  rw [h]

/-- The digit count being there, equal plans of DISPLAYNUMBER are performed or refused alike, also where the block
is owned twice or not constructed. -/
theorem exec_displayNumber_congr {s : State} {n : Fin 9} {v w : Int} {lz : Bool} (hn : s.dev.numDigits = some n)
    (h : planDisplayNumber s.params n v lz = planDisplayNumber s.params n w lz) :
    exec (.displayNumber v lz) s = exec (.displayNumber w lz) s := by
  have hplan : planOf (.displayNumber v lz) s = planOf (.displayNumber w lz) s := by
    simp only [planOf, withDigitCount_some _ hn, h]
  rw [exec_eq_plan, exec_eq_plan, hplan]

/-- Settles O25: the value shown is zero on both sides, and nothing else of the operand is read. -/
theorem displayNumberFallsBackToZero : Obligations.DisplayNumberFallsBackToZero := by
  intro s n value lz hn hout
  have hshown : shownValue n value = shownValue n 0 := by rw [shownValue_out hout, shownValue_zero]
  exact exec_displayNumber_congr hn (planDisplayNumber_congr s.params lz hshown)

end Sys2Proof.Machine
end

section
/-! PROOFS, family 70_reset_and_hazards: loss of power (R235). -/

namespace Sys2Proof.Machine

open Sys2Proof

/-- No chip register is known after a loss of power: the chip space kept is the empty one. -/
theorem State.powerCycle_chip_read (s : State) (a : Nat) : s.powerCycle.chip.read a = none := by
  rw [State.powerCycle_chip, Memory.read_nil]

/-- Settles O55, field by field of the state that a loss of power leaves. -/
theorem powerLossForgetsEverything : Obligations.PowerLossForgetsEverything := fun s =>
  ⟨s.powerCycle_constructed, s.powerCycle_dev, s.powerCycle_cmd, s.powerCycle_chip_read⟩

end Sys2Proof.Machine
end

section
/-! PROOFS, family other: the Command words (R80 to R88, R95). A word that decodes is the word of one Command whose data
some rule forms, and what it decodes to is that Command's instruction. -/

namespace Sys2Proof.Machine

open Sys2Proof

/-! ## The fields of a Command word -/

theorem commandWord_opcode (c : Command) : (commandWord c).extractLsb' 8 8 = opcodeByte c.op :=
  BitVec.extractLsb'_append_eq_left

theorem commandWord_low (c : Command) {k : Nat} (hk : k ≤ 8) :
    (commandWord c).extractLsb' 0 k = c.data.extractLsb' 0 k :=
  BitVec.extractLsb'_append_eq_of_add_le (by omega)

theorem commandWord_data (c : Command) : (commandWord c).extractLsb' 0 8 = c.data :=
  BitVec.extractLsb'_append_eq_right

theorem commandWord_getLsbD (c : Command) {k : Nat} (hk : k < 8) :
    (commandWord c).getLsbD k = c.data.getLsbD k := by
  rw [commandWord, BitVec.getLsbD_append, if_pos hk]

/-- A word is its opcode byte and its data byte. -/
theorem word_eq_append (w : CommandWord) : w = w.extractLsb' 8 8 ++ w.extractLsb' 0 8 := by
  rw [BitVec.extractLsb'_append_extractLsb'_eq_extractLsb' (by rfl)]
  exact BitVec.extractLsb'_eq_self.symm

/-- A data byte is its two digit fields (R83). -/
theorem digitFields_eta (d : Byte) : digitFields (d.getLsbD 7) (d.extractLsb' 0 7) = d := by
  revert d
  decide

theorem nibbleData_eta {d : Byte} (h : d.toNat ≤ 15) : nibbleData (d.extractLsb' 0 4) = d := by
  apply BitVec.eq_of_toNat_eq
  simp [nibbleData, BitVec.extractLsb'_toNat]
  omega

theorem nibbleData_low (l : BitVec 4) : (nibbleData l).extractLsb' 0 4 = l := by
  revert l
  decide

theorem nibbleData_toNat (l : BitVec 4) : (nibbleData l).toNat = l.toNat := by
  have := l.isLt
  simp [nibbleData]
  omega

theorem bitData_eta {d : Byte} (h : d.toNat ≤ 1) : bitData (d.getLsbD 0) = d := by
  have hd : d = 0 ∨ d = 1 := by bv_omega
  obtain rfl | rfl := hd <;> rfl

theorem bitData_bit (b : Bool) : (bitData b).getLsbD 0 = b := by
  cases b <;> rfl

theorem bitData_toNat_le (b : Bool) : (bitData b).toNat ≤ 1 := by
  cases b <;> decide

/-! ## The instruction of a Command -/

/-- The row of the table for a digit position. -/
def digitInstr (position : Fin 8) (point : Bool) (segments : BitVec 7) : Instr :=
  match position with
  | 0 => .digit0 point segments
  | 1 => .digit1 point segments
  | 2 => .digit2 point segments
  | 3 => .digit3 point segments
  | 4 => .digit4 point segments
  | 5 => .digit5 point segments
  | 6 => .digit6 point segments
  | 7 => .digit7 point segments

/-- The row of the table for a Command, its fields read from the data byte. -/
def commandInstr (c : Command) : Instr :=
  match c.op with
  | .digit position => digitInstr position (c.data.getLsbD 7) (c.data.extractLsb' 0 7)
  | .decodeMode => .decode
  | .intensity => .intensity (c.data.extractLsb' 0 4)
  | .scanLimit => .scanLimit (c.data.extractLsb' 0 4)
  | .shutdown => .shutdownCmd (c.data.getLsbD 0)
  | .displayTest => .displayTestCmd (c.data.getLsbD 0)

/-- The data of the Command is one that a rule forms under some setting of INIT_SCAN_RAW (R84 to R87, R233). -/
def CommandFormed (c : Command) : Prop :=
  match c.op with
  | .digit _ => True
  | .decodeMode => c.data = 0x00
  | .intensity => c.data.toNat ≤ 15
  | .scanLimit => c.data.toNat ≤ 8
  | .shutdown => c.data.toNat ≤ 1
  | .displayTest => c.data.toNat ≤ 1

theorem CommandFormed.of_legal {p : Params} {c : Command} (h : commandLegal p c = true) : CommandFormed c := by
  obtain ⟨op, d⟩ := c
  cases op with
  | scanLimit =>
    simp only [commandLegal, Bool.or_eq_true, Bool.and_eq_true, decide_eq_true_eq] at h
    simp only [CommandFormed]
    omega
  | digit _ => trivial
  | decodeMode | intensity | shutdown | displayTest => simpa [commandLegal, CommandFormed] using h

/-- A word with the opcode of a digit register decodes whatever its data is (R82, R83). -/
theorem decodeCommand_digit (position : Fin 8) (d : Byte) :
    decodeCommand (commandWord ⟨.digit position, d⟩) =
      .ok (digitInstr position (d.getLsbD 7) (d.extractLsb' 0 7)) := by
  unfold decodeCommand
  rw [commandWord_opcode, commandWord_low (k := 7) _ (by decide),
    commandWord_getLsbD _ (by decide)]
  fin_cases position <;> rfl

/-- R95: a Command of formed data decodes to its own row. -/
theorem decodeCommand_commandWord {c : Command} (h : CommandFormed c) :
    decodeCommand (commandWord c) = .ok (commandInstr c) := by
  obtain ⟨op, d⟩ := c
  cases op with
  | digit position => exact decodeCommand_digit position d
  | decodeMode | intensity | scanLimit | shutdown | displayTest =>
    unfold decodeCommand
    rw [commandWord_opcode, commandWord_data, commandWord_low _ (by decide : 4 ≤ 8),
      commandWord_getLsbD _ (by decide : 0 < 8)]
    exact if_pos h

theorem encode_digitInstr (w : Nat) (position : Fin 8) (point : Bool) (segments : BitVec 7) :
    encode w (digitInstr position point segments) =
      .command (commandWord ⟨.digit position, digitFields point segments⟩) := by
  fin_cases position <;> rfl

/-- The row of a Command of formed data has that Command's word. -/
theorem encode_commandInstr (w : Nat) {c : Command} (h : CommandFormed c) :
    encode w (commandInstr c) = .command (commandWord c) := by
  obtain ⟨op, d⟩ := c
  cases op with
  | digit position => rw [commandInstr, encode_digitInstr, digitFields_eta]
  | decodeMode => rw [show d = 0x00 from h]; rfl
  | intensity => simp only [commandInstr, encode, nibbleData_eta h]; rfl
  | scanLimit => simp only [commandInstr, encode, nibbleData_eta (le_trans h (by decide : 8 ≤ 15))]; rfl
  | shutdown => simp only [commandInstr, encode, bitData_eta h]; rfl
  | displayTest => simp only [commandInstr, encode, bitData_eta h]; rfl

theorem wellFormed_digitInstr (w : Nat) (position : Fin 8) (point : Bool) (segments : BitVec 7) :
    WellFormed w (digitInstr position point segments) = true := by
  fin_cases position <;> rfl

theorem wellFormed_commandInstr (w : Nat) {c : Command} (h : CommandFormed c) :
    WellFormed w (commandInstr c) = true := by
  obtain ⟨op, d⟩ := c
  cases op with
  | digit position => exact wellFormed_digitInstr w _ _ _
  | scanLimit =>
    have hlimit : (d.extractLsb' 0 4).toNat = d.toNat := by
      rw [← nibbleData_toNat, nibbleData_eta (le_trans h (by decide : 8 ≤ 15))]
    exact decide_eq_true (hlimit ▸ h)
  | decodeMode | intensity | shutdown | displayTest => rfl

/-- R88: a word whose opcode is none of the 13 is rejected. -/
theorem decodeCommand_unknown {w : CommandWord} (h : ¬ ∃ op, opcodeByte op = w.extractLsb' 8 8) :
    decodeCommand w = .error .unknownOpcode := by
  rw [exists_opcodeByte_iff] at h
  unfold decodeCommand
  simp only
  split
  case h_14 => rfl
  all_goals omega

/-- A word whose data no rule forms is rejected (R84 to R87). -/
theorem decodeCommand_unformed {c : Command} (h : ¬ CommandFormed c) :
    decodeCommand (commandWord c) = .error .dataNeverFormed := by
  obtain ⟨op, d⟩ := c
  cases op with
  | digit position => exact absurd trivial h
  | decodeMode | intensity | scanLimit | shutdown | displayTest =>
    unfold decodeCommand
    rw [commandWord_opcode, commandWord_data]
    exact if_neg h

/-- The decoder reads a word only as a Command of formed data. -/
theorem decodeCommand_ok {w : CommandWord} {i : Instr} (h : decodeCommand w = .ok i) :
    ∃ c : Command, CommandFormed c ∧ w = commandWord c ∧ i = commandInstr c := by
  by_cases hop : ∃ op, opcodeByte op = w.extractLsb' 8 8
  · obtain ⟨op, hop⟩ := hop
    have hw : w = commandWord ⟨op, w.extractLsb' 0 8⟩ := by
      rw [commandWord, hop]
      exact word_eq_append w
    by_cases hc : CommandFormed ⟨op, w.extractLsb' 0 8⟩
    · rw [hw, decodeCommand_commandWord hc] at h
      exact ⟨_, hc, hw, (Except.ok.inj h).symm⟩
    · rw [hw, decodeCommand_unformed hc] at h
      cases h
  · rw [decodeCommand_unknown hop] at h
    cases h

/-! ## The rows of the Commands -/

/-- The rows of format CMD. -/
def isCommandRow : Instr → Bool
  | .digit0 .. | .digit1 .. | .digit2 .. | .digit3 .. | .digit4 .. | .digit5 .. | .digit6 .. | .digit7 ..
  | .decode | .intensity _ | .scanLimit _ | .shutdownCmd _ | .displayTestCmd _ => true
  | _ => false

theorem isCommandRow_commandInstr (c : Command) : isCommandRow (commandInstr c) = true := by
  obtain ⟨op, d⟩ := c
  cases op with
  | digit position => fin_cases position <;> rfl
  | decodeMode | intensity | scanLimit | shutdown | displayTest => rfl

/-- Every well-formed row of format CMD is the row of the one Command that it stands for. -/
theorem exists_command_of_row {w : Nat} {i : Instr} (hi : isCommandRow i = true) (hw : WellFormed w i = true) :
    ∃ c : Command, CommandFormed c ∧ i = commandInstr c := by
  have hdigit : ∀ (position : Fin 8) (p : Bool) (g : BitVec 7),
      ∃ c : Command, CommandFormed c ∧ digitInstr position p g = commandInstr c := fun position p g =>
    ⟨⟨.digit position, digitFields p g⟩, trivial, by
      simp only [commandInstr, digitFields_getLsbD_seven, digitFields_segments]⟩
  cases i with
  | digit0 p g => exact hdigit 0 p g
  | digit1 p g => exact hdigit 1 p g
  | digit2 p g => exact hdigit 2 p g
  | digit3 p g => exact hdigit 3 p g
  | digit4 p g => exact hdigit 4 p g
  | digit5 p g => exact hdigit 5 p g
  | digit6 p g => exact hdigit 6 p g
  | digit7 p g => exact hdigit 7 p g
  | decode => exact ⟨⟨.decodeMode, 0x00⟩, rfl, rfl⟩
  | intensity l =>
    have hl : (nibbleData l).toNat ≤ 15 := by rw [nibbleData_toNat]; omega
    exact ⟨⟨.intensity, nibbleData l⟩, hl, by simp only [commandInstr, nibbleData_low]⟩
  | scanLimit l =>
    have hl : (nibbleData l).toNat ≤ 8 := by rw [nibbleData_toNat]; exact of_decide_eq_true hw
    exact ⟨⟨.scanLimit, nibbleData l⟩, hl, by simp only [commandInstr, nibbleData_low]⟩
  | shutdownCmd n => exact ⟨⟨.shutdown, bitData n⟩, bitData_toNat_le n, by simp only [commandInstr, bitData_bit]⟩
  | displayTestCmd t => exact ⟨⟨.displayTest, bitData t⟩, bitData_toNat_le t, by simp only [commandInstr, bitData_bit]⟩
  | _ => cases hi

end Sys2Proof.Machine
end

section
/-! PROOFS, family other: the decoder and the encoder (R89 to R91, R95) and the step that takes a frame (R11). -/

namespace Sys2Proof.Machine

open Sys2Proof

/-! ## Requests -/

/-- A code from 0xD on names nothing (R90). -/
theorem decodeRequest_reserved {w : Nat} {reqOp : ReqOp} (h : 0xD ≤ reqOp.toNat) (flag : Bool) (a b : Operand w) :
    decodeRequest reqOp flag a b = .error .reservedRequest := by
  unfold decodeRequest
  split
  case h_14 => rfl
  all_goals omega

/-- What a request can decode to: a well-formed operation whose own words, unused fields apart, are that request. -/
theorem decodeRequest_ok {w : Nat} {reqOp : ReqOp} {reqFlag : Bool} {reqA reqB : Operand w} {i : Instr}
    (h : decodeRequest reqOp reqFlag reqA reqB = .ok i) :
    isCommandRow i = false ∧ i ≠ .decodeMode ∧ WellFormed w i = true ∧
      ∃ (flag : Bool) (a b : Operand w),
        encode w i = .request w reqOp flag a b ∧ decodeRequest reqOp flag a b = .ok i := by
  have hcode : reqOp = BitVec.ofNat 4 reqOp.toNat := by simp
  unfold decodeRequest at h
  split at h
  case h_14 => cases h
  all_goals
    rename_i hop
    rw [hop] at hcode
    subst hcode
    cases h
    refine ⟨rfl, nofun, ?_, _, _, _, rfl, ?_⟩
    · simp [WellFormed, fitsOperand_operandInt, fitsIdentifier_toNat]
    · simp [decodeRequest]

/-- A well-formed request is read back from its words with every operand. -/
theorem decodeFrame_encode_request {w : Nat} {i : Instr} (hw : 0 < w) (hi : WellFormed w i = true)
    (hrow : isCommandRow i = false) (hne : i ≠ .decodeMode) : decodeFrame (encode w i) = .ok i := by
  cases i with
  | construct cs n =>
    obtain ⟨hcs, hn⟩ := Bool.and_eq_true_iff.1 hi
    simp [encode, decodeFrame, decodeRequest, identifierOperand_toNat hcs, operandInt_intOperand hw hn]
  | setIntensity v | setScanLimit v | clearDigit v | displayNumber v lz | displayMinutes v | digitPattern v
  | charPattern v =>
    simp [encode, decodeFrame, decodeRequest, operandInt_intOperand hw hi]
  | setDigit a b dp | setChar a b dp | displayTime a b =>
    obtain ⟨ha, hb⟩ := Bool.and_eq_true_iff.1 hi
    simp [encode, decodeFrame, decodeRequest, operandInt_intOperand hw ha, operandInt_intOperand hw hb]
  | shutdown e | displayTest e => rfl
  | decodeMode => exact absurd rfl hne
  | _ => cases hrow

/-- Settles O1: a Command row is the row of one Command, whose word decodes to it; a request's operands are read back
one by one. -/
theorem decodeOfEncodeIsIdentity : Obligations.DecodeOfEncodeIsIdentity := by
  intro w hw
  refine ⟨fun i hi hne => ?_, rfl⟩
  cases hrow : isCommandRow i with
  | true =>
    obtain ⟨c, hc, rfl⟩ := exists_command_of_row hrow hi
    rw [encode_commandInstr w hc]
    exact decodeCommand_commandWord hc
  | false => exact decodeFrame_encode_request (by omega) hi hrow hne

/-- Settles O2, from what a word and what a request can decode to. -/
theorem encodeOfDecodeIsTheWord : Obligations.EncodeOfDecodeIsTheWord := by
  intro w
  refine ⟨fun word i h => ?_, fun reqOp reqFlag reqA reqB i h => ?_⟩
  · obtain ⟨c, hc, rfl, rfl⟩ := decodeCommand_ok h
    exact encode_commandInstr w hc
  · obtain ⟨_, _, _, hwords⟩ := decodeRequest_ok h
    exact hwords

theorem commandInstr_ne_decodeMode (c : Command) : commandInstr c ≠ .decodeMode := by
  intro h
  have hrow := isCommandRow_commandInstr c
  rw [h] at hrow
  cases hrow

/-- Settles O3, as O2. -/
theorem decodedInstructionIsWellFormed : Obligations.DecodedInstructionIsWellFormed := by
  intro w i _
  refine ⟨fun word h => ?_, fun reqOp reqFlag reqA reqB h => ?_⟩
  · obtain ⟨c, hc, _, rfl⟩ := decodeCommand_ok h
    exact ⟨wellFormed_commandInstr w hc, commandInstr_ne_decodeMode c⟩
  · obtain ⟨_, hne, hwell, _⟩ := decodeRequest_ok h
    exact ⟨hwell, hne⟩

/-- Settles O4, by running the decoder on each word. -/
theorem writtenOutWordsDecode : Obligations.WrittenOutWordsDecode := by
  unfold Obligations.WrittenOutWordsDecode
  decide

/-- No frame decodes to the internal operation (R134). -/
theorem decodeFrame_ne_decodeMode (f : Frame) : decodeFrame f ≠ .ok .decodeMode := by
  intro h
  cases f with
  | request w reqOp flag a b =>
    obtain ⟨_, hne, _⟩ := decodeRequest_ok h
    exact hne rfl
  | command word =>
    obtain ⟨c, _, _, hc⟩ := decodeCommand_ok h
    exact commandInstr_ne_decodeMode c hc.symm

/-! ## The step that takes a frame -/

/-- A step on a frame that decodes to nothing, with one owner. -/
theorem step_undecoded {s : State} {f : Frame} {rest : List Frame} {e : DecodeError} (hb : s.blocked = false)
    (ho : s.secondOwner = false) (hr : s.requests = f :: rest) (hf : decodeFrame f = .error e) :
    step s = .refused (refusalOfDecode e) := by
  rw [step_request hb hr]
  simp [runFrame, hf, ho]

/-- Settles O5: the thirteen codes by computation, the reserved ones by their range. -/
theorem requestCodesAndReservedSpace : Obligations.RequestCodesAndReservedSpace := by
  intro w flag a b
  refine ⟨⟨rfl, rfl, rfl, rfl, rfl, rfl, rfl, rfl, rfl, rfl, rfl, rfl, rfl⟩, decodeFrame_ne_decodeMode, ?_⟩
  intro reqOp s rest hop hb ho hr
  exact step_undecoded hb ho hr (decodeRequest_reserved hop flag a b)

/-- Settles O9: the frame is off the queue before its instruction is performed. -/
theorem stepRunsTheDecodedInstruction : Obligations.StepRunsTheDecodedInstruction := by
  intro s f rest i hb hr hf
  rw [step_request hb hr, runFrame_ok _ hf]
  rfl

theorem decodeTableWord_some {nbits w : Nat} {i : Instr} (h : decodeTableWord nbits w = some i) :
    decodeFrame (frameOfTableWord Config.operandWidth nbits w) = .ok i := by
  unfold decodeTableWord at h
  split at h
  · rename_i hf
    rw [hf, Option.some.inj h]
  · cases h

/-- Presenting a frame and taking it gives the state back (log 23). -/
theorem step_withFetchWord {s : State} {nbits word : Nat} {i : Instr} (hb : s.blocked = false)
    (h : decodeFrame (frameOfTableWord s.params.operandWidth nbits word) = .ok i) :
    step (s.withFetchWord nbits word) = exec i s := by
  rw [State.withFetchWord, step_request (s := s.present _) hb rfl, runFrame_ok _ h, State.takeFrame_present]

/-- Settles O10: at the width 32 both decoders read the same frame. -/
theorem presentedTableWordIsRunNext : Obligations.PresentedTableWordIsRunNext := by
  intro s nbits word i hb
  refine ⟨step_withFetchWord hb, fun hw h => step_withFetchWord hb ?_⟩
  rw [hw]
  exact decodeTableWord_some h

/-- Settles O11, from the two cases in which a step takes no frame. -/
theorem stuckAndIdleBlockStays : Obligations.StuckAndIdleBlockStays :=
  ⟨fun _ => step_blocked, fun _ => step_idle⟩

end Sys2Proof.Machine
end

section
/-! PROOFS, family other: what the plan of an instruction can be, said once. -/

namespace Sys2Proof.Machine

open Sys2Proof

/-! ## A register write with its Command -/

/-- A register of the block together with the value it takes (R22 to R26). -/
inductive Setting where
  | intensity (level : Fin 16)
  | scanLimit (limit : Fin 8)
  | shutdown (engaged : Bool)
  | displayTest (engaged : Bool)
  | decodeMode

/-- The write of the register. -/
def Setting.write : Setting → Action
  | .intensity level => .writeIntensity level
  | .scanLimit limit => .writeScanLimit limit
  | .shutdown engaged => .writeShutdown engaged
  | .displayTest engaged => .writeTest engaged
  | .decodeMode => .writeDecodeMode .disabled

/-- The Command that transmits the value (R84 to R87). -/
def Setting.command : Setting → Command
  | .intensity level => ⟨.intensity, rawData level⟩
  | .scanLimit limit => ⟨.scanLimit, rawData limit⟩
  | .shutdown engaged => ⟨.shutdown, shutdownData engaged⟩
  | .displayTest engaged => ⟨.displayTest, testData engaged⟩
  | .decodeMode => ⟨.decodeMode, 0x00⟩

/-- The registers after the write. -/
def Setting.dev (d : DeviceConfig) : Setting → DeviceConfig
  | .intensity level => { d with intensity := some level }
  | .scanLimit limit => { d with scanLimit := some limit }
  | .shutdown engaged => { d with shutdownF := some engaged }
  | .displayTest engaged => { d with testF := some engaged }
  | .decodeMode => { d with decodeMode := some .disabled }

/-- The register is written, then the Command goes out. -/
def Setting.actions (σ : Setting) : List Action := [σ.write, .emit σ.command]

theorem act_settingWrite (σ : Setting) (s : State) : act σ.write s = s.writeDev (σ.dev s.dev) := by
  cases σ <;> rfl

@[simp] theorem commandsOf_settingActions (σ : Setting) : commandsOf σ.actions = [σ.command] := by
  cases σ <;> rfl

theorem commandLegal_settingCommand (p : Params) (σ : Setting) : commandLegal p σ.command = true := by
  cases σ with
  | intensity level =>
    have := level.isLt
    simp [Setting.command, commandLegal, rawData]
    omega
  | scanLimit limit =>
    have := limit.isLt
    simp [Setting.command, commandLegal, rawData]
    omega
  | shutdown engaged | displayTest engaged => cases engaged <;> rfl
  | decodeMode => rfl

/-- Either the transfer never completes and only the register is written, or the Command is sent too. -/
theorem perform_settingActions (σ : Setting) {s : State} (hb : s.blocked = false) :
    perform σ.actions s = { s.writeDev (σ.dev s.dev) with blocked := true } ∨
    perform σ.actions s = (s.writeDev (σ.dev s.dev)).afterCommands [σ.command] := by
  rw [Setting.actions, perform_cons _ _ hb, act_settingWrite, perform_cons _ _ (by exact hb), perform_nil]
  obtain ⟨_, hstuck⟩ | ⟨_, hsent⟩ := (s.writeDev (σ.dev s.dev)).emit_cases σ.command
  · exact .inl hstuck
  · exact .inr hsent

theorem planSetIntensity_ok {level : Int} {as : List Action} (h : planSetIntensity level = .ok as) :
    (inRange? 16 level = none ∧ as = []) ∨
      ∃ l, inRange? 16 level = some l ∧ as = (Setting.intensity l).actions := by
  unfold planSetIntensity at h
  split at h
  · exact .inr ⟨_, ‹_›, (Except.ok.inj h).symm⟩
  · exact .inl ⟨‹_›, (Except.ok.inj h).symm⟩

theorem planSetScanLimit_ok {limit : Int} {as : List Action} (h : planSetScanLimit limit = .ok as) :
    (inRange? 8 limit = none ∧ as = []) ∨
      ∃ l, inRange? 8 limit = some l ∧ as = (Setting.scanLimit l).actions := by
  unfold planSetScanLimit at h
  split at h
  · exact .inr ⟨_, ‹_›, (Except.ok.inj h).symm⟩
  · exact .inl ⟨‹_›, (Except.ok.inj h).symm⟩

/-! ## The Commands by themselves -/

theorem planOf_digitInstr (position : Fin 8) (p : Bool) (g : BitVec 7) (s : State) :
    planOf (digitInstr position p g) s = planEmit ⟨.digit position, digitFields p g⟩ := by
  fin_cases position <;> rfl

theorem planScanLimitCommand_ok {p : Params} {l : BitVec 4} {as : List Action}
    (h : planScanLimitCommand p l = .ok as) :
    commandLegal p ⟨.scanLimit, nibbleData l⟩ = true ∧ as = [.emit ⟨.scanLimit, nibbleData l⟩] := by
  unfold planScanLimitCommand at h
  split at h
  · rename_i hl
    exact ⟨by simpa [commandLegal, nibbleData_toNat] using hl, (Except.ok.inj h).symm⟩
  · cases h

/-- A row of format CMD sends one Command, of data that some rule forms. -/
theorem planOf_commandRow_ok {i : Instr} {s : State} {as : List Action} (hrow : isCommandRow i = true)
    (h : planOf i s = .ok as) : ∃ c, commandLegal s.params c = true ∧ as = [.emit c] := by
  have hsent : ∀ c, commandLegal s.params c = true → planEmit c = .ok as →
      ∃ c, commandLegal s.params c = true ∧ as = [.emit c] := fun c hc h => ⟨c, hc, (Except.ok.inj h).symm⟩
  cases i with
  | digit0 p g | digit1 p g | digit2 p g | digit3 p g | digit4 p g | digit5 p g | digit6 p g | digit7 p g
  | decode => exact hsent _ rfl h
  | intensity l =>
    refine hsent _ ?_ h
    simp [commandLegal, nibbleData_toNat]
    omega
  | scanLimit l => exact ⟨_, planScanLimitCommand_ok h⟩
  | shutdownCmd b | displayTestCmd b =>
    refine hsent _ ?_ h
    exact decide_eq_true (bitData_toNat_le b)
  | _ => cases hrow

/-! ## CONSTRUCT -/

/-- Step 4 of R231 as its primitives (R233). -/
def scanLimitSteps (p : Params) (n : Fin 9) : List Action :=
  if h : n.val ≤ 7 then (Setting.scanLimit ⟨n.val, by omega⟩).actions
  else (if p.initScanRaw then [.emit ⟨.scanLimit, 0x08⟩] else []) ++ [.drawScanLimit]

/-- The steps of R231 after the digit count and the identifier are taken, up to CONSTRUCTED. -/
def constructSettings (p : Params) (n : Fin 9) : List Action :=
  (Setting.shutdown false).actions ++ (Setting.displayTest false).actions ++
    (Setting.intensity p.intensityDefault).actions ++ scanLimitSteps p n ++ Setting.decodeMode.actions

/-- CONSTRUCT's primitives but the last, which writes CONSTRUCTED. -/
def constructBody (p : Params) (cs : Nat) (n : Fin 9) : List Action :=
  [.writeChipSelect cs, .writeNumDigits n] ++ constructSettings p n

theorem planInitScanLimit_eq (p : Params) (n : Fin 9) : planInitScanLimit p n = .ok (scanLimitSteps p n) := by
  unfold planInitScanLimit scanLimitSteps
  by_cases h : n.val ≤ 7
  · have hle : n ≤ 7 := h
    rw [if_pos hle, dif_pos h]
    exact planSetScanLimit_val ⟨n.val, by omega⟩
  · have hgt : ¬ n ≤ 7 := h
    rw [if_neg hgt, dif_neg h]
    cases p.initScanRaw <;> rfl

theorem constructSteps_eq (p : Params) (cs : Nat) (n : Fin 9) :
    constructSteps p cs n = .ok (constructBody p cs n ++ [.writeConstructed]) := by
  rw [constructSteps, planInitScanLimit_eq, planSetIntensity_val]
  simp [constructBody, constructSettings, planShutdown, planDisplayTest, planDecodeMode, Setting.actions, Setting.write,
    Setting.command]

/-- The Command of step 4, where one is sent (R233). -/
def scanLimitCommands (p : Params) (n : Fin 9) : List Command :=
  if n.val ≤ 7 then [⟨.scanLimit, BitVec.ofNat 8 n.val⟩]
  else if p.initScanRaw then [⟨.scanLimit, 0x08⟩] else []

/-- The Commands of CONSTRUCT but the last. -/
def constructFirstCommands (p : Params) (n : Fin 9) : List Command :=
  [⟨.shutdown, 0x01⟩, ⟨.displayTest, 0x00⟩, ⟨.intensity, BitVec.ofNat 8 p.intensityDefault.val⟩] ++
    scanLimitCommands p n

/-- The Commands of CONSTRUCT, in the order R232 requires. -/
def constructCommands (p : Params) (n : Fin 9) : List Command :=
  constructFirstCommands p n ++ [⟨.decodeMode, 0x00⟩]

theorem commandsOf_append (as bs : List Action) : commandsOf (as ++ bs) = commandsOf as ++ commandsOf bs := by
  induction as with
  | nil => rfl
  | cons a as ih => cases a <;> simp [commandsOf, ih]

theorem commandsOf_scanLimitSteps (p : Params) (n : Fin 9) :
    commandsOf (scanLimitSteps p n) = scanLimitCommands p n := by
  unfold scanLimitSteps scanLimitCommands
  by_cases h : n.val ≤ 7
  · rw [dif_pos h, if_pos h, commandsOf_settingActions]
    rfl
  · rw [dif_neg h, if_neg h]
    cases p.initScanRaw <;> rfl

theorem commandsOf_constructBody (p : Params) (cs : Nat) (n : Fin 9) :
    commandsOf (constructBody p cs n) = constructCommands p n := by
  simp only [constructBody, constructSettings, commandsOf_append, commandsOf_scanLimitSteps, commandsOf_settingActions]
  rfl

theorem commandsOf_construct (p : Params) (cs : Nat) (n : Fin 9) :
    commandsOf (constructBody p cs n ++ [.writeConstructed]) = constructCommands p n := by
  rw [commandsOf_append, commandsOf_constructBody]
  exact List.append_nil _

theorem mem_scanLimitCommands {p : Params} {n : Fin 9} {c : Command} (h : c ∈ scanLimitCommands p n) :
    c.op = .scanLimit ∧ commandLegal p c = true := by
  unfold scanLimitCommands at h
  split at h
  · rename_i hn
    obtain rfl := List.mem_singleton.1 h
    refine ⟨rfl, ?_⟩
    simp [commandLegal]
    omega
  · split at h
    · rename_i hraw
      obtain rfl := List.mem_singleton.1 h
      exact ⟨rfl, by simp [commandLegal, hraw]⟩
    · cases h

theorem commandLegal_constructCommands {p : Params} {n : Fin 9} {c : Command} (h : c ∈ constructCommands p n) :
    commandLegal p c = true := by
  simp only [constructCommands, constructFirstCommands, List.mem_append, List.mem_cons, List.not_mem_nil, or_false] at h
  obtain ((rfl | rfl | rfl) | hscan) | rfl := h
  · exact commandLegal_settingCommand p (.shutdown false)
  · exact commandLegal_settingCommand p (.displayTest false)
  · exact commandLegal_settingCommand p (.intensity p.intensityDefault)
  · exact (mem_scanLimitCommands hscan).2
  · exact commandLegal_settingCommand p .decodeMode

/-! ## Every instruction -/

/-- What the plan of an instruction can be. -/
inductive PlanShape (s : State) : Instr → List Action → Prop
  /-- A row of format CMD sends its Command. -/
  | command {i : Instr} {c : Command} (hrow : isCommandRow i = true) (hlegal : commandLegal s.params c = true) :
    PlanShape s i [.emit c]
  /-- DECODEMODE by itself (R134). -/
  | decodeMode : PlanShape s .decodeMode Setting.decodeMode.actions
  /-- CONSTRUCT of a legal digit count on an unconstructed block (R231). -/
  | construct {cs : Nat} {n : Fin 9} (hconstructed : s.constructed = false) (hn : n ≠ 0) :
    PlanShape s (.construct cs (n.val : Int)) (constructBody s.params cs n ++ [.writeConstructed])
  /-- A lookup answers (R110, R111). -/
  | answer {i : Instr} (pattern : Byte) : PlanShape s i [.respond pattern]
  /-- The digit operations and those made of them, silent rejections included. -/
  | digits {i : Instr} {as : List Action} (hconstructed : s.constructed = true)
    (hdigits : ∀ a ∈ as, emitsDigitBelow 8 a) : PlanShape s i as
  /-- A configuration operation (R130 to R133). -/
  | setting {i : Instr} {σ : Setting} (hconstructed : s.constructed = true) (hσ : σ ≠ .decodeMode) :
    PlanShape s i σ.actions

theorem planLookup_ok {r : Except Refusal Byte} {as : List Action} (h : planLookup r = .ok as) :
    ∃ pattern, r = .ok pattern ∧ as = [.respond pattern] := by
  unfold planLookup at h
  split at h
  · exact ⟨_, rfl, (Except.ok.inj h).symm⟩
  · cases h

theorem emitsDigitBelow.mono {m n : Nat} {a : Action} (h : emitsDigitBelow m a) (hmn : m ≤ n) :
    emitsDigitBelow n a := by
  obtain ⟨i, d, hi, ha⟩ := h
  exact ⟨i, d, lt_of_lt_of_le hi hmn, ha⟩

theorem emitsDigitBelow_of_single {as : List Action} {r : Option (Fin 8)}
    (h : ∃ i d, r = some i ∧ as = [.emit ⟨.digit i, d⟩]) : ∀ a ∈ as, emitsDigitBelow 8 a := by
  obtain ⟨i, d, _, rfl⟩ := h
  exact fun a ha => ⟨i, d, i.isLt, List.mem_singleton.1 ha⟩

theorem emitsDigitBelow_of_time {n : Fin 9} {as : List Action}
    (h : (n ≠ 4 ∧ as = []) ∨ (n = 4 ∧ ∀ a ∈ as, emitsDigitBelow 4 a)) : ∀ a ∈ as, emitsDigitBelow 8 a := by
  obtain ⟨_, rfl⟩ | ⟨_, hdigits⟩ := h
  · exact fun _ ha => nomatch ha
  · exact fun a ha => (hdigits a ha).mono (by decide)

theorem planShape {i : Instr} {s : State} {as : List Action} (h : planOf i s = .ok as) : PlanShape s i as := by
  cases hrow : isCommandRow i with
  | true =>
    obtain ⟨c, hlegal, rfl⟩ := planOf_commandRow_ok hrow h
    exact .command hrow hlegal
  | false =>
    cases i with
    | construct cs n =>
      obtain ⟨hconstructed, k, rfl, hk, hsteps⟩ := planConstruct_ok h
      rw [constructSteps_eq] at hsteps
      obtain rfl := Except.ok.inj hsteps
      exact .construct hconstructed hk
    | decodeMode =>
      obtain rfl := Except.ok.inj h
      exact .decodeMode
    | digitPattern v | charPattern v =>
      obtain ⟨pattern, _, rfl⟩ := planLookup_ok h
      exact .answer pattern
    | setIntensity v =>
      obtain ⟨hc, h⟩ := whenConstructed_ok h
      obtain ⟨_, rfl⟩ | ⟨l, _, rfl⟩ := planSetIntensity_ok h
      · exact .digits hc nofun
      · exact .setting hc nofun
    | setScanLimit v =>
      obtain ⟨hc, h⟩ := whenConstructed_ok h
      obtain ⟨_, rfl⟩ | ⟨l, _, rfl⟩ := planSetScanLimit_ok h
      · exact .digits hc nofun
      · exact .setting hc nofun
    | shutdown e =>
      obtain ⟨hc, h⟩ := whenConstructed_ok h
      obtain rfl := Except.ok.inj h
      exact .setting (σ := .shutdown e) hc nofun
    | displayTest e =>
      obtain ⟨hc, h⟩ := whenConstructed_ok h
      obtain rfl := Except.ok.inj h
      exact .setting (σ := .displayTest e) hc nofun
    | clearDigit index =>
      obtain ⟨hc, h⟩ := whenConstructed_ok h
      exact .digits hc (emitsDigitBelow_of_single (planClearDigit_ok h))
    | setDigit index v dp =>
      obtain ⟨hc, h⟩ := whenConstructed_ok h
      obtain rfl | hsent := planSetDigit_ok h
      · exact .digits hc nofun
      · exact .digits hc (emitsDigitBelow_of_single hsent)
    | setChar index v dp =>
      obtain ⟨hc, h⟩ := whenConstructed_ok h
      exact .digits hc (emitsDigitBelow_of_single (planSetChar_ok h))
    | displayNumber v lz =>
      obtain ⟨hc, h⟩ := whenConstructed_ok h
      obtain ⟨n, _, h⟩ := withDigitCount_ok h
      exact .digits hc fun a ha => (planDisplayNumber_ok h a ha).mono (by omega)
    | displayTime hour minute =>
      obtain ⟨hc, h⟩ := whenConstructed_ok h
      obtain ⟨n, _, h⟩ := withDigitCount_ok h
      exact .digits hc (emitsDigitBelow_of_time (planDisplayTime_ok h))
    | displayMinutes total =>
      obtain ⟨hc, h⟩ := whenConstructed_ok h
      obtain ⟨n, _, h⟩ := withDigitCount_ok h
      exact .digits hc (emitsDigitBelow_of_time (planDisplayMinutes_ok h))
    | _ => cases hrow

/-- Every Command of a plan has data that some rule forms (R84 to R87). -/
theorem commandLegal_of_plan {i : Instr} {s : State} {as : List Action} (h : planOf i s = .ok as) :
    ∀ c ∈ commandsOf as, commandLegal s.params c = true := by
  intro c hc
  cases planShape h with
  | command _ hlegal =>
    obtain rfl := List.mem_singleton.1 hc
    exact hlegal
  | decodeMode =>
    obtain rfl := List.mem_singleton.1 hc
    rfl
  | construct _ _ =>
    rw [commandsOf_construct] at hc
    exact commandLegal_constructCommands hc
  | answer pattern => cases hc
  | digits _ hdigits =>
    obtain ⟨position, d, _, he⟩ := hdigits _ (mem_commandsOf.1 hc)
    obtain rfl := Action.emit.inj he
    rfl
  | setting _ _ =>
    rw [commandsOf_settingActions] at hc
    obtain rfl := List.mem_singleton.1 hc
    exact commandLegal_settingCommand s.params _

end Sys2Proof.Machine
end

section
/-! PROOFS, family other: CONSTRUCT performed (R231), and the registers that it alone writes. -/

namespace Sys2Proof.Machine

open Sys2Proof

/-! ## What CONSTRUCT leaves -/

/-- SCAN_LIMIT after CONSTRUCT (R233). -/
def constructedLimit (n : Fin 9) (draws : Nat) : Fin 8 :=
  if h : n.val ≤ 7 then ⟨n.val, by omega⟩ else Config.scanLimitDraw draws

/-- The registers after CONSTRUCT (R38, R234). -/
def constructedDev (p : Params) (cs : Nat) (n : Fin 9) (limit : Fin 8) : DeviceConfig :=
  ⟨some n, some p.intensityDefault, some limit, some false, some false, some .disabled, some cs⟩

/-- The state after CONSTRUCT but for its Commands. -/
def State.constructedWith (s : State) (cs : Nat) (n : Fin 9) : State :=
  { s with
    constructed := true
    dev := constructedDev s.params cs n (constructedLimit n s.draws)
    draws := if n.val ≤ 7 then s.draws else s.draws + 1 }

/-- A register write commutes with Commands: the block reads none back (R35). -/
theorem actDone_afterCommands {a : Action} (h : ∀ c, a ≠ .emit c) (s : State) (cs : List Command) :
    actDone a (s.afterCommands cs) = (actDone a s).afterCommands cs := by
  cases a with
  | emit c => exact absurd rfl (h c)
  | _ => rfl

/-- A primitive that is no Command. -/
def isWrite : Action → Bool
  | .emit _ => false
  | _ => true

theorem performDone_writes_afterCommands {as : List Action} (h : ∀ a ∈ as, isWrite a = true) (s : State)
    (cs : List Command) : performDone as (s.afterCommands cs) = (performDone as s).afterCommands cs := by
  induction as generalizing s with
  | nil => rfl
  | cons a as ih =>
    have ha : ∀ c, a ≠ .emit c := by
      rintro c rfl
      cases h _ (List.mem_cons_self ..)
    rw [performDone_cons, performDone_cons, actDone_afterCommands ha, ih fun b hb => h b (List.mem_cons_of_mem _ hb)]

/-- A plan every transfer of which completes is its register writes and then its Commands. -/
theorem performDone_eq_writes (as : List Action) (s : State) :
    performDone as s = (performDone (as.filter isWrite) s).afterCommands (commandsOf as) := by
  induction as generalizing s with
  | nil => exact s.afterCommands_nil.symm
  | cons a as ih =>
    cases a with
    | emit c =>
      have hwrites : ∀ a ∈ as.filter isWrite, isWrite a = true := fun a ha => (List.mem_filter.1 ha).2
      calc performDone (.emit c :: as) s
          = (performDone (as.filter isWrite) (s.afterCommands [c])).afterCommands (commandsOf as) := ih _
        _ = (performDone (as.filter isWrite) s).afterCommands ([c] ++ commandsOf as) := by
            rw [performDone_writes_afterCommands hwrites, State.afterCommands_append]
    | _ => exact ih _

theorem performDone_constructWrites (s : State) (cs : Nat) (n : Fin 9) :
    performDone ((constructBody s.params cs n ++ [Action.writeConstructed]).filter isWrite) s =
      s.constructedWith cs n := by
  unfold constructBody constructSettings scanLimitSteps State.constructedWith constructedLimit
  by_cases h : n.val ≤ 7
  · simp only [h, if_true, dif_pos]
    rfl
  · simp only [h, if_false, dif_neg, not_false_eq_true]
    cases s.params.initScanRaw <;> rfl

/-- R231 with every transfer completing. -/
theorem performDone_construct (s : State) (cs : Nat) (n : Fin 9) :
    performDone (constructBody s.params cs n ++ [.writeConstructed]) s =
      (s.constructedWith cs n).afterCommands (constructCommands s.params n) := by
  rw [performDone_eq_writes, performDone_constructWrites, commandsOf_construct]

/-! ## Which registers CONSTRUCT alone writes -/

/-- The writes of NUM_DIGITS, the chip-select identifier and CONSTRUCTED. -/
def isSetup : Action → Bool
  | .writeNumDigits _ | .writeChipSelect _ | .writeConstructed => true
  | _ => false

theorem act_keeps_setup {a : Action} (h : isSetup a = false) (s : State) :
    (act a s).dev.numDigits = s.dev.numDigits ∧ (act a s).dev.chipSelect = s.dev.chipSelect ∧
      (act a s).constructed = s.constructed := by
  cases a with
  | emit c =>
    obtain ⟨hdev, hconstructed, _⟩ := act_emit_frame ⟨c, rfl⟩ s
    exact ⟨congrArg _ hdev, congrArg _ hdev, hconstructed⟩
  | writeNumDigits n | writeChipSelect cs | writeConstructed => cases h
  | _ => exact ⟨rfl, rfl, rfl⟩

theorem perform_keeps_setup {as : List Action} (h : ∀ a ∈ as, isSetup a = false) (s : State) :
    (perform as s).dev.numDigits = s.dev.numDigits ∧ (perform as s).dev.chipSelect = s.dev.chipSelect ∧
      (perform as s).constructed = s.constructed := by
  refine perform_keeps (P := fun t => t.dev.numDigits = s.dev.numDigits ∧ t.dev.chipSelect = s.dev.chipSelect ∧
    t.constructed = s.constructed) ?_ ⟨rfl, rfl, rfl⟩
  rintro a ha t _ ⟨hn, hcs, hc⟩
  obtain ⟨hn', hcs', hc'⟩ := act_keeps_setup (h a ha) t
  exact ⟨hn'.trans hn, hcs'.trans hcs, hc'.trans hc⟩

theorem isSetup_settingActions (σ : Setting) : ∀ a ∈ σ.actions, isSetup a = false := by
  cases σ <;> simp [Setting.actions, Setting.write, isSetup]

theorem isSetup_scanLimitSteps (p : Params) (n : Fin 9) : ∀ a ∈ scanLimitSteps p n, isSetup a = false := by
  unfold scanLimitSteps
  split
  · exact isSetup_settingActions _
  · cases p.initScanRaw <;> simp [isSetup]

theorem isSetup_constructSettings (p : Params) (n : Fin 9) : ∀ a ∈ constructSettings p n, isSetup a = false := by
  intro a ha
  simp only [constructSettings, List.mem_append] at ha
  obtain (((ha | ha) | ha) | ha) | ha := ha
  case inl.inr => exact isSetup_scanLimitSteps p n a ha
  all_goals exact isSetup_settingActions _ a ha

/-- No plan but CONSTRUCT's writes one of the three. -/
theorem isSetup_of_plan {i : Instr} {s : State} {as : List Action} (hi : ∀ cs n, i ≠ .construct cs n)
    (h : planOf i s = .ok as) : ∀ a ∈ as, isSetup a = false := by
  intro a ha
  cases planShape h with
  | command _ _ => rw [List.mem_singleton.1 ha]; rfl
  | decodeMode => exact isSetup_settingActions _ a ha
  | construct _ _ => exact absurd rfl (hi _ _)
  | answer pattern => rw [List.mem_singleton.1 ha]; rfl
  | digits _ hdigits =>
    obtain ⟨position, d, _, rfl⟩ := hdigits a ha
    rfl
  | setting _ _ => exact isSetup_settingActions _ a ha

theorem exec_keeps_setup {i : Instr} {s t : State} (hi : ∀ cs n, i ≠ .construct cs n) (h : exec i s = .next t) :
    t.dev.numDigits = s.dev.numDigits ∧ t.dev.chipSelect = s.dev.chipSelect ∧ t.constructed = s.constructed := by
  obtain ⟨_, as, hplan, rfl⟩ := exec_next h
  exact perform_keeps_setup (isSetup_of_plan hi hplan) s

/-- What CONSTRUCT's plan is where it is performed. -/
theorem exec_construct_next {s t : State} {cs : Nat} {count : Int} (h : exec (.construct cs count) s = .next t) :
    s.secondOwner = false ∧ s.constructed = false ∧ ∃ n : Fin 9, count = (n.val : Int) ∧ n ≠ 0 ∧
      t = perform (constructBody s.params cs n ++ [.writeConstructed]) s := by
  obtain ⟨howner, as, hplan, rfl⟩ := exec_next h
  obtain ⟨hconstructed, n, hcount, hn, hsteps⟩ := planConstruct_ok hplan
  rw [constructSteps_eq] at hsteps
  obtain rfl := Except.ok.inj hsteps
  exact ⟨howner, hconstructed, n, hcount, hn, rfl⟩

/-- The identifier and NUM_DIGITS are taken before the first transfer. -/
theorem perform_constructBody {s : State} (hb : s.blocked = false) (p : Params) (cs : Nat) (n : Fin 9) :
    perform (constructBody p cs n) s =
      perform (constructSettings p n) (s.writeDev { s.dev with chipSelect := some cs, numDigits := some n }) := by
  simp only [constructBody, List.cons_append, List.nil_append]
  rw [perform_cons _ _ hb, perform_cons _ _ (by exact hb)]
  rfl

/-- CONSTRUCT up to CONSTRUCTED, whether a transfer hangs or not: NUM_DIGITS and the identifier stand. -/
theorem perform_constructBody_setup {s : State} (hb : s.blocked = false) (p : Params) (cs : Nat) (n : Fin 9) :
    (perform (constructBody p cs n) s).dev.numDigits = some n ∧
      (perform (constructBody p cs n) s).dev.chipSelect = some cs ∧
      (perform (constructBody p cs n) s).constructed = s.constructed := by
  rw [perform_constructBody hb]
  exact perform_keeps_setup (isSetup_constructSettings p n) _

theorem perform_construct_setup {s : State} (hb : s.blocked = false) (cs : Nat) (n : Fin 9) :
    (perform (constructBody s.params cs n ++ [.writeConstructed]) s).dev.numDigits = some n ∧
      (perform (constructBody s.params cs n ++ [.writeConstructed]) s).dev.chipSelect = some cs := by
  obtain ⟨hn, hcs, _⟩ := perform_constructBody_setup hb s.params cs n
  rw [perform_append]
  refine perform_keeps (P := fun t => t.dev.numDigits = some n ∧ t.dev.chipSelect = some cs) ?_ ⟨hn, hcs⟩
  rintro a ha t _ ht
  obtain rfl := List.mem_singleton.1 ha
  exact ht

/-- CONSTRUCT either comes to its end or hangs in a transfer with CONSTRUCTED not yet written. -/
theorem perform_construct_cases (s : State) (cs : Nat) (n : Fin 9) (hb : s.blocked = false) :
    ((perform (constructBody s.params cs n ++ [.writeConstructed]) s).blocked = true ∧
      (perform (constructBody s.params cs n ++ [.writeConstructed]) s).constructed = s.constructed) ∨
    perform (constructBody s.params cs n ++ [.writeConstructed]) s =
      (s.constructedWith cs n).afterCommands (constructCommands s.params n) := by
  cases hhung : (perform (constructBody s.params cs n) s).blocked with
  | true =>
    left
    rw [perform_append, perform_of_blocked _ hhung]
    obtain ⟨_, _, hconstructed⟩ := perform_constructBody_setup hb s.params cs n
    exact ⟨hhung, hconstructed⟩
  | false =>
    right
    rw [← performDone_construct]
    refine perform_eq_performDone_of_unblocked ?_
    rw [perform_append, perform_cons _ _ hhung]
    exact hhung

/-- Settles O52: no plan but CONSTRUCT's writes one of the three, and once constructed CONSTRUCT is refused. -/
theorem digitCountIsWrittenByConstructAlone : Obligations.DigitCountIsWrittenByConstructAlone := by
  refine ⟨fun s t i hi h => exec_keeps_setup hi h, fun s t cs count hb h => ?_, fun s t hc h => ?_⟩
  · obtain ⟨_, _, n, rfl, _, rfl⟩ := exec_construct_next h
    obtain ⟨hn, hcs⟩ := perform_construct_setup hb cs n
    exact ⟨by rw [hn]; rfl, hcs⟩
  · obtain rfl | ⟨f, rest, i, _, _, _, hexec⟩ := step_next h
    · exact ⟨rfl, rfl, hc⟩
    · have hi : ∀ cs n, i ≠ .construct cs n := by
        rintro cs n rfl
        obtain ⟨_, hnot, _⟩ := exec_construct_next hexec
        rw [State.takeFrame_constructed, hc] at hnot
        cases hnot
      obtain ⟨hn, hcs, hc'⟩ := exec_keeps_setup hi hexec
      exact ⟨hn, hcs, hc'.trans hc⟩

end Sys2Proof.Machine
end

section
/-! PROOFS, family other: what every step keeps whatever stands at the input (R21, R37, R38, R53, R60, R84 to R87). -/

namespace Sys2Proof.Machine

open Sys2Proof

/-! ## The chip register space and the Commands sent -/

/-- The chip register space is canonical, holds the last data sent to each register and nothing else. -/
def ChipAgrees (s : State) : Prop :=
  s.chip.wf ∧ (∀ op, s.chip.read (opcodeAddress op) = lastSent s.cmd op) ∧
    ∀ a, s.chip.read a ≠ none → ∃ op, a = opcodeAddress op

theorem ChipAgrees.afterCommand {s : State} (h : ChipAgrees s) (c : Command) : ChipAgrees (s.afterCommands [c]) := by
  obtain ⟨hwf, hlast, honly⟩ := h
  refine ⟨Memory.afterCommand_wf c hwf, fun op => ?_, fun a ha => ?_⟩
  · rw [State.afterCommands_cmd, lastSent_append]
    by_cases hop : c.op = op
    · rw [if_pos hop, ← hop]
      exact Memory.afterCommand_read_self s.chip c
    · rw [if_neg hop, ← hlast op]
      exact Memory.afterCommand_read_other s.chip c fun h => hop (opcodeAddress_injective h.symm)
  · by_cases hop : a = opcodeAddress c.op
    · exact ⟨c.op, hop⟩
    · refine honly a fun hnone => ha ?_
      exact (Memory.afterCommand_read_other s.chip c hop).trans hnone

theorem perform_chipAgrees {s : State} (h : ChipAgrees s) (as : List Action) : ChipAgrees (perform as s) := by
  refine perform_keeps (P := ChipAgrees) (fun a _ t _ ht => ?_) h
  cases a with
  | emit c =>
    obtain ⟨_, hact⟩ | ⟨_, hact⟩ := t.emit_cases c
    · rw [act, hact]
      exact ht
    · rw [act, hact]
      exact ht.afterCommand c
  | _ => exact ht

/-! ## The registers once constructed -/

/-- Every register exists (R38). -/
def RegistersExist (d : DeviceConfig) : Prop :=
  d.numDigits.isSome ∧ d.intensity.isSome ∧ d.scanLimit.isSome ∧ d.shutdownF.isSome ∧ d.testF.isSome ∧
    d.decodeMode = some .disabled ∧ d.chipSelect.isSome

/-- No primitive takes a register away. -/
theorem RegistersExist.act {s : State} (h : RegistersExist s.dev) (a : Action) : RegistersExist (act a s).dev := by
  cases a with
  | emit c =>
    obtain ⟨hdev, _⟩ := act_emit_frame ⟨c, rfl⟩ s
    rw [hdev]
    exact h
  | writeDecodeMode mode =>
    cases mode
    obtain ⟨hnumDigits, hintensity, hscanLimit, hshutdown, htest, _, hchipSelect⟩ := h
    exact ⟨hnumDigits, hintensity, hscanLimit, hshutdown, htest, rfl, hchipSelect⟩
  | writeConstructed | respond pattern => exact h
  | _ => simp_all [RegistersExist, Machine.act]

theorem RegistersExist.perform {s : State} (h : RegistersExist s.dev) (as : List Action) :
    RegistersExist (perform as s).dev :=
  perform_keeps (P := fun t => RegistersExist t.dev) (fun a _ _ _ ht => ht.act a) h

/-- Where a step leaves CONSTRUCTED set, the registers were there before it or CONSTRUCT has just written them all. -/
theorem exec_keeps_registers {i : Instr} {s t : State} (hb : s.blocked = false)
    (h : s.constructed = true → RegistersExist s.dev) (hexec : exec i s = .next t) (ht : t.constructed = true) :
    RegistersExist t.dev := by
  by_cases hi : ∀ cs n, i ≠ .construct cs n
  · obtain ⟨_, _, hconstructed⟩ := exec_keeps_setup hi hexec
    obtain ⟨_, as, _, rfl⟩ := exec_next hexec
    exact (h (hconstructed.symm.trans ht)).perform as
  · obtain ⟨cs, count, rfl⟩ : ∃ cs count, i = .construct cs count := by simpa using hi
    obtain ⟨_, hnot, n, _, _, rfl⟩ := exec_construct_next hexec
    obtain ⟨_, hconstructed⟩ | hdone := perform_construct_cases s cs n hb
    · rw [hconstructed, hnot] at ht
      cases ht
    · rw [hdone]
      exact ⟨rfl, rfl, rfl, rfl, rfl, rfl, rfl⟩

/-- NUM_DIGITS is never 0: CONSTRUCT takes 1 to 8, and nothing else writes it. -/
theorem exec_keeps_digitCountOk {i : Instr} {s t : State} (hb : s.blocked = false) (h : s.dev.numDigits ≠ some 0)
    (hexec : exec i s = .next t) : t.dev.numDigits ≠ some 0 := by
  by_cases hi : ∀ cs n, i ≠ .construct cs n
  · obtain ⟨hn, _⟩ := exec_keeps_setup hi hexec
    rw [hn]
    exact h
  · obtain ⟨cs, count, rfl⟩ : ∃ cs count, i = .construct cs count := by simpa using hi
    obtain ⟨_, _, n, _, hn0, rfl⟩ := exec_construct_next hexec
    obtain ⟨hn, _⟩ := perform_construct_setup hb cs n
    rw [hn]
    exact fun h0 => hn0 (Option.some.inj h0)

/-! ## The invariant -/

/-- An instruction adds some of its plan's Commands to CMD. -/
theorem exec_cmd {i : Instr} {s t : State} (h : exec i s = .next t) :
    ∃ as new, planOf i s = .ok as ∧ new <+: commandsOf as ∧ t.cmd = s.cmd ++ new := by
  obtain ⟨_, as, hplan, rfl⟩ := exec_next h
  obtain ⟨new, hnew, hcmd, _⟩ := perform_cmd as s
  exact ⟨as, new, hplan, hnew, hcmd⟩

theorem exec_keeps_inv {i : Instr} {s t : State} (hb : s.blocked = false) (h : s.Inv) (hexec : exec i s = .next t) :
    t.Inv := by
  have hparams : t.params = s.params := exec_params hexec
  obtain ⟨hwf, hlast, honly⟩ : ChipAgrees t := by
    obtain ⟨_, as, _, rfl⟩ := exec_next hexec
    exact perform_chipAgrees ⟨h.chipCanonical, h.chipHoldsLast, h.chipOnlyRegisters⟩ as
  refine ⟨hparams ▸ h.paramsOk, hwf, hlast, honly, ?_, exec_keeps_digitCountOk hb h.digitCountOk hexec,
    exec_keeps_registers hb h.registersExist hexec⟩
  obtain ⟨as, new, hplan, hnew, hcmd⟩ := exec_cmd hexec
  rw [hparams, hcmd]
  intro c hc
  obtain hold | hc := List.mem_append.1 hc
  · exact h.commandsLegal c hold
  · exact commandLegal_of_plan hplan c (hnew.subset hc)

/-- Nothing of the invariant speaks of the waiting requests. -/
theorem State.Inv.takeFrame {s : State} (h : s.Inv) (rest : List Frame) : (s.takeFrame rest).Inv :=
  ⟨h.paramsOk, h.chipCanonical, h.chipHoldsLast, h.chipOnlyRegisters, h.commandsLegal, h.digitCountOk, h.registersExist⟩

/-- Settles O48: the frame off the queue, each part of the invariant is kept by the primitives of the plan. -/
theorem stepKeepsTheInvariant : Obligations.StepKeepsTheInvariant := by
  intro s t h hstep
  obtain rfl | ⟨f, rest, i, hb, _, _, hexec⟩ := step_next hstep
  · exact h
  · exact exec_keeps_inv (s := s.takeFrame rest) hb (h.takeFrame rest) hexec

end Sys2Proof.Machine
end

section
/-! PROOFS, family other: the life of a block whose input is the request port (R26, R35, R134, R233, R237). -/

namespace Sys2Proof.Machine

open Sys2Proof

/-! ## The last data sent, and how often -/

theorem lastSent_append_of_ne {new : List Command} {op : Opcode} (h : ∀ c ∈ new, c.op ≠ op) (cmd : List Command) :
    lastSent (cmd ++ new) op = lastSent cmd op := by
  have hnone : new.reverse.find? (fun c => c.op == op) = none :=
    List.find?_eq_none.2 fun c hc => by simpa using h c (List.mem_reverse.1 hc)
  rw [lastSent, List.reverse_append, List.find?_append, hnone, Option.none_or, lastSent]

theorem timesSent_append_of_ne {new : List Command} {op : Opcode} (h : ∀ c ∈ new, c.op ≠ op) (cmd : List Command) :
    timesSent (cmd ++ new) op = timesSent cmd op := by
  have hnil : new.filter (fun c => c.op == op) = [] :=
    List.filter_eq_nil_iff.2 fun c hc => by simpa using h c hc
  rw [timesSent, List.filter_append, hnil, List.append_nil, timesSent]

theorem constructFirstCommands_op_ne {p : Params} {n : Fin 9} {c : Command} (h : c ∈ constructFirstCommands p n) :
    c.op ≠ .decodeMode := by
  simp only [constructFirstCommands, List.mem_append, List.mem_cons, List.not_mem_nil, or_false] at h
  obtain (rfl | rfl | rfl) | hscan := h
  case inr =>
    obtain ⟨hop, _⟩ := mem_scanLimitCommands hscan
    rw [hop]
    nofun
  all_goals nofun

/-! ## Each shadow register against the stream -/

/-- Each shadow register holds the value last transmitted for its setting (R35, R233). -/
def ShadowsAgree (cmd : List Command) (d : DeviceConfig) : Prop :=
  lastSent cmd .intensity = d.intensity.map (fun l => BitVec.ofNat 8 l.val) ∧
  lastSent cmd .shutdown = d.shutdownF.map shutdownData ∧
  lastSent cmd .displayTest = d.testF.map testData ∧
  lastSent cmd .decodeMode = some 0x00 ∧
  ∀ b, lastSent cmd .scanLimit = some b →
    b = 0x08 ∨ d.scanLimit.map (fun l => BitVec.ofNat 8 l.val) = some b

/-- A digit write transmits no setting. -/
theorem ShadowsAgree.digits {cmd new : List Command} {d : DeviceConfig} (h : ShadowsAgree cmd d)
    (hnew : ∀ c ∈ new, ∃ position, c.op = .digit position) : ShadowsAgree (cmd ++ new) d := by
  have hlast : ∀ op, (∀ position, op ≠ .digit position) → lastSent (cmd ++ new) op = lastSent cmd op := by
    intro op hop
    refine lastSent_append_of_ne (fun c hc => ?_) cmd
    obtain ⟨position, hposition⟩ := hnew c hc
    rw [hposition]
    exact (hop position).symm
  unfold ShadowsAgree
  rw [hlast .intensity nofun, hlast .shutdown nofun, hlast .displayTest nofun, hlast .decodeMode nofun,
    hlast .scanLimit nofun]
  exact h

/-- A setting is transmitted as it is written. -/
theorem ShadowsAgree.setting {cmd : List Command} {d : DeviceConfig} (h : ShadowsAgree cmd d) (σ : Setting) :
    ShadowsAgree (cmd ++ [σ.command]) (σ.dev d) := by
  obtain ⟨hintensity, hshutdown, htest, hdecode, hscan⟩ := h
  unfold ShadowsAgree
  simp only [lastSent_append]
  cases σ with
  | scanLimit limit => exact ⟨hintensity, hshutdown, htest, hdecode, fun b hb => .inr hb⟩
  | intensity level => exact ⟨rfl, hshutdown, htest, hdecode, hscan⟩
  | shutdown engaged => exact ⟨hintensity, rfl, htest, hdecode, hscan⟩
  | displayTest engaged => exact ⟨hintensity, hshutdown, rfl, hdecode, hscan⟩
  | decodeMode => exact ⟨hintensity, hshutdown, htest, rfl, hscan⟩

/-- CONSTRUCT transmits every setting that it writes; a free SCAN_LIMIT goes with the data 8 or with none (R233). -/
theorem shadowsAgree_construct (p : Params) (cs : Nat) (n : Fin 9) (draws : Nat) :
    ShadowsAgree (constructCommands p n) (constructedDev p cs n (constructedLimit n draws)) := by
  unfold ShadowsAgree constructCommands constructFirstCommands scanLimitCommands constructedLimit
  by_cases h : n.val ≤ 7
  · simp only [h, if_true, dif_pos]
    exact ⟨rfl, rfl, rfl, rfl, fun b hb => .inr hb⟩
  · simp only [h, if_false, dif_neg, not_false_eq_true]
    cases p.initScanRaw with
    | true => exact ⟨rfl, rfl, rfl, rfl, fun b hb => .inl (Option.some.inj hb).symm⟩
    | false => exact ⟨rfl, rfl, rfl, rfl, fun b hb => nomatch hb⟩

/-! ## One request -/

theorem perform_digits_life {s : State} {as : List Action} (h : s.Life) (hb : s.blocked = false)
    (hconstructed : s.constructed = true) (hdigits : ∀ a ∈ as, emitsDigitBelow 8 a) : (perform as s).Life := by
  obtain ⟨hdev, hsame, _⟩ := perform_emits_frame (fun a ha => (hdigits a ha).isEmit) s
  obtain ⟨hparams, hrequests, _⟩ := perform_static as s
  obtain ⟨new, hnew, hcmd, _⟩ := perform_cmd as s
  have hops : ∀ c ∈ new, ∃ position, c.op = .digit position := by
    intro c hc
    obtain ⟨position, d, _, he⟩ := hdigits _ (mem_commandsOf.1 (hnew.subset hc))
    exact ⟨position, by rw [Action.emit.inj he]⟩
  refine ⟨by rw [hparams, hrequests]; exact h.onlyRequests, ?_, ?_, fun _ _ => ?_⟩
  · have hne : ∀ c ∈ new, c.op ≠ .decodeMode := by
      intro c hc
      obtain ⟨position, hposition⟩ := hops c hc
      rw [hposition]
      nofun
    rw [hcmd, hsame, timesSent_append_of_ne hne]
    exact h.decodeOnce
  · rw [hsame, hconstructed]
    nofun
  · have hshadows : ShadowsAgree s.cmd s.dev := h.shadows hconstructed hb
    rw [hcmd, hdev]
    exact hshadows.digits hops

theorem perform_setting_life {s : State} {σ : Setting} (h : s.Life) (hb : s.blocked = false)
    (hconstructed : s.constructed = true) (hσ : σ ≠ .decodeMode) : (perform σ.actions s).Life := by
  have hsilent : ∀ {q : Prop}, s.constructed = false → q := fun hnot => nomatch hconstructed.symm.trans hnot
  obtain hhung | hdone := perform_settingActions σ hb
  · rw [hhung]
    exact ⟨h.onlyRequests, h.decodeOnce, fun hnot => hsilent hnot, fun _ hstuck => nomatch hstuck⟩
  · rw [hdone]
    refine ⟨h.onlyRequests, ?_, fun hnot => hsilent hnot, fun _ _ => ?_⟩
    · have hop : σ.command.op ≠ .decodeMode := by
        cases σ with
        | decodeMode => exact absurd rfl hσ
        | _ => exact nofun
      rw [State.afterCommands_cmd, timesSent_append, if_neg hop]
      exact h.decodeOnce
    · have hshadows : ShadowsAgree s.cmd s.dev := h.shadows hconstructed hb
      exact hshadows.setting σ

theorem perform_construct_life {s : State} {cs : Nat} {n : Fin 9} (h : s.Life) (hb : s.blocked = false)
    (hnot : s.constructed = false) :
    (perform (constructBody s.params cs n ++ [.writeConstructed]) s).Life := by
  have hcmd : s.cmd = [] := h.silentBefore hnot hb
  obtain ⟨hhung, hsame⟩ | hdone := perform_construct_cases s cs n hb
  · obtain ⟨hparams, hrequests, _⟩ := perform_static (constructBody s.params cs n ++ [.writeConstructed]) s
    refine ⟨by rw [hparams, hrequests]; exact h.onlyRequests, ?_, fun _ hfree => ?_, fun hc _ => ?_⟩
    · obtain ⟨new, hnew, hsent, hpart⟩ := perform_cmd (constructBody s.params cs n ++ [.writeConstructed]) s
      obtain ⟨_, _, hlength⟩ := hpart hb hhung
      rw [commandsOf_construct] at hnew hlength
      have hfirst : new <+: constructFirstCommands s.params n := by
        obtain rfl | hfirst := List.prefix_concat_iff.1 hnew
        · exact absurd hlength (lt_irrefl _)
        · exact hfirst
      rw [hsent, hsame, timesSent_append_of_ne fun c hc => constructFirstCommands_op_ne (hfirst.subset hc)]
      exact h.decodeOnce
    · rw [hhung] at hfree
      cases hfree
    · rw [hsame, hnot] at hc
      cases hc
  · rw [hdone]
    refine ⟨h.onlyRequests, ?_, nofun, fun _ _ => ?_⟩
    · rw [State.afterCommands_cmd, constructCommands, ← List.append_assoc, timesSent_append,
        timesSent_append_of_ne fun c hc => constructFirstCommands_op_ne hc]
      exact congrArg (· + 1) (h.decodeOnce.trans (by rw [hnot]; rfl))
    · rw [State.afterCommands_cmd, show (s.constructedWith cs n).cmd = [] from hcmd, List.nil_append]
      exact shadowsAgree_construct s.params cs n s.draws

/-- What a request of the port does to the life cycle. -/
theorem exec_keeps_life {i : Instr} {s t : State} (hrow : isCommandRow i = false) (hi : i ≠ .decodeMode)
    (hb : s.blocked = false) (h : s.Life) (hexec : exec i s = .next t) : t.Life := by
  obtain ⟨_, as, hplan, rfl⟩ := exec_next hexec
  cases planShape hplan with
  | command hrow' _ => cases hrow.symm.trans hrow'
  | decodeMode => exact absurd rfl hi
  | construct hnot _ => exact perform_construct_life h hb hnot
  | answer pattern =>
    rw [perform_cons _ _ hb]
    exact ⟨h.onlyRequests, h.decodeOnce, h.silentBefore, h.shadows⟩
  | digits hconstructed hdigits => exact perform_digits_life h hb hconstructed hdigits
  | setting hconstructed hσ => exact perform_setting_life h hb hconstructed hσ

/-- A frame of the request port is none of the Command rows and not the internal operation. -/
theorem decodeFrame_request {w : Nat} {f : Frame} {i : Instr} (hf : isRequestFrame w f = true)
    (h : decodeFrame f = .ok i) : isCommandRow i = false ∧ i ≠ .decodeMode := by
  cases f with
  | request v reqOp flag a b =>
    obtain ⟨hrow, hne, _⟩ := decodeRequest_ok h
    exact ⟨hrow, hne⟩
  | command word => cases hf

/-- Settles O49: the frame taken is a request, and each kind of request keeps the life cycle. -/
theorem stepKeepsTheLifeCycle : Obligations.StepKeepsTheLifeCycle := by
  intro s t h hstep
  obtain rfl | ⟨f, rest, i, hb, hr, hf, hexec⟩ := step_next hstep
  · exact h
  · have hmem : f ∈ s.requests := by rw [hr]; exact List.mem_cons_self ..
    obtain ⟨hrow, hne⟩ := decodeFrame_request (h.onlyRequests f hmem) hf
    have hrest : (s.takeFrame rest).Life :=
      ⟨fun g hg => h.onlyRequests g (by rw [hr]; exact List.mem_cons_of_mem _ hg), h.decodeOnce, h.silentBefore,
        h.shadows⟩
    exact exec_keeps_life (s := s.takeFrame rest) hrow hne hb hrest hexec

end Sys2Proof.Machine
end

section
/-! PROOFS, family other: the state at reset (R38), the streams that only grow (R30, R62), what no rule reads (R6, R35,
R67) and the transfer that never completes (R241). -/

namespace Sys2Proof.Machine

open Sys2Proof

/-! ## Reset -/

/-- The open glyphs are bytes of R112: `Config.digitGlyph` lets in no other. -/
theorem ofConfig_digitRom_get (v : Fin 16) :
    Params.ofConfig.digitRom.get v = BitVec.ofNat 8 ((Config.digitGlyph v).val + 1) :=
  Vector.getElem_ofFn v.isLt

theorem glyphByte_ok (g : Fin 127) :
    (BitVec.ofNat 8 (g.val + 1)).getLsbD 7 = false ∧ BitVec.ofNat 8 (g.val + 1) ≠ 0 := by
  revert g
  decide

theorem ofConfig_wf : Params.ofConfig.wf := by
  refine ⟨fun v => ?_, Nat.le_add_left 1 _, by decide⟩
  rw [ofConfig_digitRom_get]
  exact glyphByte_ok _

/-- Settles O47, field by field. -/
theorem resetMeetsTheInvariant : Obligations.ResetMeetsTheInvariant :=
  ⟨⟨ofConfig_wf, List.Pairwise.nil, fun _ => rfl, fun _ h => absurd rfl h, nofun, nofun, nofun⟩,
    ⟨nofun, rfl, fun _ _ => rfl, nofun⟩⟩

/-! ## The streams -/

theorem perform_rsp (as : List Action) (s : State) : s.rsp <+: (perform as s).rsp := by
  refine perform_keeps (P := fun t => s.rsp <+: t.rsp) (fun a _ t _ ht => ?_) List.prefix_rfl
  cases a with
  | emit c =>
    obtain ⟨_, _, hrsp, _⟩ := act_emit_frame ⟨c, rfl⟩ t
    rw [hrsp]
    exact ht
  | respond pattern => exact ht.trans (List.prefix_append ..)
  | _ => exact ht

/-- Settles O51: a plan adds to both streams at their ends. -/
theorem commandStreamOnlyGrows : Obligations.CommandStreamOnlyGrows := by
  intro s t h
  obtain rfl | ⟨f, rest, i, _, _, _, hexec⟩ := step_next h
  · exact ⟨List.prefix_rfl, List.prefix_rfl⟩
  · obtain ⟨_, as, _, rfl⟩ := exec_next hexec
    obtain ⟨new, _, hcmd, _⟩ := perform_cmd as (s.takeFrame rest)
    exact ⟨⟨new, hcmd.symm⟩, perform_rsp as (s.takeFrame rest)⟩

/-! ## What no rule reads -/

/-- The parameters with another operand width, which no plan reads (R6). -/
def Params.withWidth (p : Params) (w : Nat) : Params := { p with operandWidth := w }

theorem planDisplayNumber_withWidth (p : Params) (w : Nat) (n : Fin 9) (value : Int) (lz : Bool) :
    planDisplayNumber (p.withWidth w) n value lz = planDisplayNumber p n value lz := by
  rw [planDisplayNumber_eq, planDisplayNumber_eq]
  rfl

/-- Of the state a plan reads the parameters but the width, NUM_DIGITS and CONSTRUCTED. -/
theorem planOf_congr {s t : State} {w : Nat} (hp : s.params.withWidth w = t.params)
    (hn : s.dev.numDigits = t.dev.numDigits) (hc : s.constructed = t.constructed) (i : Instr) :
    planOf i s = planOf i t := by
  cases i with
  | displayNumber value lz =>
    simp only [planOf, whenConstructed, withDigitCount, ← hp, hn, hc, planDisplayNumber_withWidth]
  | scanLimit _ | construct _ _ | setDigit _ _ _ | setChar _ _ _ | displayTime _ _ | displayMinutes _ | digitPattern _
  | charPattern _ =>
    simp only [planOf, whenConstructed, withDigitCount, ← hp, hn, hc]
    rfl
  | _ => simp only [planOf, whenConstructed, hc]

theorem SameButUnread.planOf {s t : State} (h : SameButUnread s t) (i : Instr) :
    Machine.planOf i s = Machine.planOf i t :=
  planOf_congr h.params h.numDigits h.constructed i

theorem SameButUnread.emit {s t : State} (h : SameButUnread s t) (c : Command) :
    SameButUnread (s.emit c) (t.emit c) := by
  unfold State.emit
  rw [h.channel]
  cases t.channel.transfer with
  | none => exact ⟨h.params, h.numDigits, h.constructed, h.cmd, h.rsp, h.requests, rfl, rfl, h.secondOwner⟩
  | some ch =>
    exact ⟨h.params, h.numDigits, h.constructed, congrArg (· ++ [c]) h.cmd, h.rsp, h.requests, h.blocked, rfl,
      h.secondOwner⟩

/-- No primitive reads what may differ. -/
theorem SameButUnread.act {s t : State} (h : SameButUnread s t) (a : Action) :
    SameButUnread (act a s) (act a t) := by
  cases a with
  | emit c => exact h.emit c
  | writeNumDigits n =>
    exact ⟨h.params, rfl, h.constructed, h.cmd, h.rsp, h.requests, h.blocked, h.channel, h.secondOwner⟩
  | writeConstructed =>
    exact ⟨h.params, h.numDigits, rfl, h.cmd, h.rsp, h.requests, h.blocked, h.channel, h.secondOwner⟩
  | respond pattern =>
    exact ⟨h.params, h.numDigits, h.constructed, h.cmd, congrArg (· ++ [pattern]) h.rsp, h.requests, h.blocked,
      h.channel, h.secondOwner⟩
  | _ => exact ⟨h.params, h.numDigits, h.constructed, h.cmd, h.rsp, h.requests, h.blocked, h.channel, h.secondOwner⟩

theorem SameButUnread.perform {s t : State} (h : SameButUnread s t) (as : List Action) :
    SameButUnread (perform as s) (perform as t) := by
  induction as generalizing s t with
  | nil => exact h
  | cons a as ih =>
    cases hb : s.blocked with
    | true => rwa [perform_of_blocked _ hb, perform_of_blocked _ (h.blocked.symm.trans hb)]
    | false =>
      rw [perform_cons _ _ hb, perform_cons _ _ (h.blocked.symm.trans hb)]
      exact ih (h.act a)

theorem SameButUnread.exec {s t : State} (h : SameButUnread s t) (i : Instr) :
    SameOutcome (exec i s) (exec i t) := by
  rw [exec_eq_plan, exec_eq_plan, ← h.planOf i, ownedBy, ownedBy, ← h.secondOwner]
  cases s.secondOwner with
  | true => exact rfl
  | false =>
    cases Machine.planOf i s with
    | error r => exact rfl
    | ok as => exact h.perform as

theorem SameButUnread.runFrame {s t : State} (h : SameButUnread s t) (f : Frame) :
    SameOutcome (runFrame f s) (runFrame f t) := by
  unfold Machine.runFrame
  cases decodeFrame f with
  | ok i => exact h.exec i
  | error e =>
    simp only [← h.secondOwner]
    cases s.secondOwner <;> exact rfl

theorem SameButUnread.takeFrame {s t : State} (h : SameButUnread s t) (rest : List Frame) :
    SameButUnread (s.takeFrame rest) (t.takeFrame rest) :=
  ⟨h.params, h.numDigits, h.constructed, h.cmd, h.rsp, rfl, h.blocked, h.channel, h.secondOwner⟩

/-- Settles O53: the two states take the same frame, have the same plan, and each primitive keeps them alike. -/
theorem onlyTheDigitCountIsRead : Obligations.OnlyTheDigitCountIsRead := by
  intro s t h
  cases hb : s.blocked with
  | true =>
    rw [step_blocked hb, step_blocked (h.blocked.symm.trans hb)]
    exact h
  | false =>
    cases hr : s.requests with
    | nil =>
      rw [step_idle hr, step_idle (h.requests.symm.trans hr)]
      exact h
    | cons f rest =>
      rw [step_request hb hr, step_request (h.blocked.symm.trans hb) (h.requests.symm.trans hr)]
      exact (h.takeFrame rest).runFrame f

/-! ## The transfer that never completes -/

/-- A stuck block against the same plan on a channel that always completes: of its Commands the first were sent, as
many as the channel still completed. -/
theorem perform_hung {as : List Action} {s : State} (hb : s.blocked = false) (hhung : (perform as s).blocked = true) :
    ∃ k, s.channel = .hangsAfter k ∧ (perform as s).channel = .hangsAfter 0 ∧ k < (commandsOf as).length ∧
      (perform as s).cmd = s.cmd ++ (commandsOf as).take k := by
  obtain ⟨new, hnew, hcmd, hstop⟩ := perform_cmd as s
  obtain ⟨hchannel, hend, hlength⟩ := hstop hb hhung
  exact ⟨new.length, hchannel, hend, hlength, by rw [hcmd, ← List.prefix_iff_eq_take.1 hnew]⟩

/-- On a channel that always completes the whole plan is performed. -/
theorem perform_all {s : State} (hb : s.blocked = false) (as : List Action) :
    (perform as { s with channel := .completes }).blocked = false ∧
      (perform as { s with channel := .completes }).cmd = s.cmd ++ commandsOf as := by
  obtain ⟨_, hblocked⟩ := perform_completes as (s := { s with channel := .completes }) rfl
  have hfree := hblocked.trans hb
  exact ⟨hfree, perform_cmd_of_unblocked hfree⟩

/-- Settles O54: both channels perform the same plan, for no plan looks at the channel. -/
theorem hungTransferStopsTheRequestThere : Obligations.HungTransferStopsTheRequestThere := by
  refine ⟨fun s t i hb hexec hhung => ?_, fun s t i hchannel hexec => ?_⟩
  · obtain ⟨howner, as, hplan, rfl⟩ := exec_next hexec
    obtain ⟨k, hchannel, hend, hlength, hcmd⟩ := perform_hung hb hhung
    obtain ⟨hfree, hall⟩ := perform_all hb as
    have hother : exec i { s with channel := .completes } = .next (perform as { s with channel := .completes }) :=
      exec_of_plan howner ((planOf_channel i s .completes).trans hplan)
    exact ⟨k, _, commandsOf as, hchannel, hend, hother, hfree, hall, hlength, hcmd⟩
  · obtain ⟨_, as, _, rfl⟩ := exec_next hexec
    obtain ⟨hend, hblocked⟩ := perform_completes as hchannel
    exact ⟨hblocked, hend⟩

end Sys2Proof.Machine
end

section
/-! PROOFS, family other: the Commands by themselves (R80 to R87) and DECODEMODE (R134): what they send and what they
leave. -/

namespace Sys2Proof.Machine

open Sys2Proof

/-! ## What they send -/

/-- A plan of one Command, with one owner and the transfer completing. -/
theorem exec_emit {i : Instr} {s : State} {c : Command} (ho : s.secondOwner = false) (hc : s.CanTransfer 1)
    (h : planOf i s = planEmit c) : exec i s = .next (s.afterCommands [c]) :=
  exec_emits (cs := [c]) ho h hc

theorem exec_digitInstr {s : State} (ho : s.secondOwner = false) (hc : s.CanTransfer 1) (position : Fin 8) (p : Bool)
    (g : BitVec 7) : exec (digitInstr position p g) s = .next (s.afterCommands [⟨.digit position, digitFields p g⟩]) :=
  exec_emit ho hc (planOf_digitInstr position p g s)

/-- Settles O12: the data is that of the two fields, for each of the eight rows alike. -/
theorem digitCommandsAreSent : Obligations.DigitCommandsAreSent := by
  intro s p g ho hc
  have hsent : ∀ position : Fin 8, ∃ d : Byte, d.getLsbD 7 = p ∧ d.extractLsb' 0 7 = g ∧
      exec (digitInstr position p g) s = .next (s.afterCommands [⟨.digit position, d⟩]) := fun position =>
    ⟨digitFields p g, digitFields_getLsbD_seven p g, digitFields_segments p g, exec_digitInstr ho hc position p g⟩
  exact ⟨hsent 0, hsent 1, hsent 2, hsent 3, hsent 4, hsent 5, hsent 6, hsent 7⟩

theorem nibbleData_eq (l : BitVec 4) : nibbleData l = BitVec.ofNat 8 l.toNat := by
  revert l
  decide

theorem planScanLimitCommand_formed {p : Params} {l : BitVec 4}
    (h : l.toNat ≤ 7 ∨ (l.toNat = 8 ∧ p.initScanRaw = true)) :
    planScanLimitCommand p l = planEmit ⟨.scanLimit, nibbleData l⟩ :=
  if_pos h

theorem planScanLimitCommand_unformed {p : Params} {l : BitVec 4}
    (h : 8 < l.toNat ∨ (l.toNat = 8 ∧ p.initScanRaw = false)) :
    planScanLimitCommand p l = .error .commandNeverFormed := by
  refine if_neg ?_
  rintro (hle | ⟨heq, hraw⟩)
  · omega
  · obtain hlt | ⟨_, hnot⟩ := h
    · omega
    · cases hraw.symm.trans hnot

/-- Settles O13, row by row. -/
theorem configurationCommandsAreSent : Obligations.ConfigurationCommandsAreSent := by
  intro s ho hc
  refine ⟨exec_emit ho hc rfl, fun l => ?_, fun l hl => ?_, fun l hl => ?_, fun n => exec_emit ho hc rfl,
    fun b => exec_emit ho hc rfl⟩
  · rw [← nibbleData_eq]
    exact exec_emit ho hc rfl
  · rw [← nibbleData_eq]
    exact exec_emit ho hc (planScanLimitCommand_formed hl)
  · exact exec_of_refusal ho (planScanLimitCommand_unformed hl)

/-- Settles O14. DECODEMODE's plan is one register write and one Command. -/
theorem decodeModeStepIsSent : Obligations.DecodeModeStepIsSent := fun _ ho hc => 
  exec_write_emit (a := .writeDecodeMode .disabled) ho rfl rfl hc

theorem planOf_commandInstr {s : State} {c : Command} (h : commandLegal s.params c = true) :
    planOf (commandInstr c) s = planEmit c := by
  have hformed := CommandFormed.of_legal h
  obtain ⟨op, d⟩ := c
  cases op with
  | digit position => rw [commandInstr, planOf_digitInstr, digitFields_eta]
  | decodeMode => rw [show d = 0x00 from hformed]; rfl
  | intensity => simp only [commandInstr, planOf, nibbleData_eta hformed]
  | scanLimit =>
    have hd : nibbleData (d.extractLsb' 0 4) = d := nibbleData_eta (le_trans hformed (by decide : 8 ≤ 15))
    have hlimit : (d.extractLsb' 0 4).toNat = d.toNat := by rw [← nibbleData_toNat, hd]
    have hsent := planScanLimitCommand_formed (p := s.params) (l := d.extractLsb' 0 4)
      (by simpa [commandLegal, hlimit] using h)
    rwa [hd] at hsent
  | shutdown | displayTest => simp only [commandInstr, planOf, bitData_eta hformed]

/-- Settles O8: the word decodes to the Command's own row, whose plan is that Command. -/
theorem legalCommandReadsBackAndRuns : Obligations.LegalCommandReadsBackAndRuns := fun _ c hlegal ho hc =>
  ⟨commandInstr c, decodeCommand_commandWord (CommandFormed.of_legal hlegal),
    exec_emit ho hc (planOf_commandInstr hlegal)⟩

/-! ## What they leave -/

/-- The frame of a plan that sends one Command and does nothing else. -/
theorem exec_emit_untouched {i : Instr} {s t : State} {c : Command} (h : exec i s = .next t)
    (hplan : ∀ as, planOf i s = .ok as → as = [.emit c]) :
    t.dev = s.dev ∧ Untouched s t (· = opcodeAddress c.op) := by
  obtain ⟨_, as, has, rfl⟩ := exec_next h
  obtain rfl := hplan as has
  exact perform_emits_untouched (fun a ha => ⟨c, List.mem_singleton.1 ha⟩)
    (fun d hd => by rw [Action.emit.inj (List.mem_singleton.1 hd)]) s

theorem planEmit_ok {c : Command} {as : List Action} (h : planEmit c = .ok as) : as = [.emit c] :=
  (Except.ok.inj h).symm

theorem digitRow_untouched {s t : State} {position : Fin 8} {p : Bool} {g : BitVec 7}
    (h : exec (digitInstr position p g) s = .next t) :
    t.dev = s.dev ∧ Untouched s t (· = opcodeAddress (.digit position)) := by
  refine exec_emit_untouched (c := ⟨.digit position, digitFields p g⟩) h fun as has => ?_
  rw [planOf_digitInstr] at has
  exact planEmit_ok has

/-- Settles O41, row by row: each plan is the row's one Command. -/
theorem commandRowsFrame : Obligations.CommandRowsFrame := by
  rintro s t i op (⟨p, g, hmem⟩ | ⟨rfl, rfl⟩ | ⟨l, rfl, rfl⟩ | ⟨l, rfl, rfl⟩ | ⟨n, rfl, rfl⟩ | ⟨b, rfl, rfl⟩) h
  · have hrow : ∃ position : Fin 8, i = digitInstr position p g ∧ op = .digit position := by
      simp only [List.mem_cons, Prod.mk.injEq, List.not_mem_nil, or_false] at hmem
      obtain hrow | hrow | hrow | hrow | hrow | hrow | hrow | hrow := hmem
      · exact ⟨0, hrow⟩
      · exact ⟨1, hrow⟩
      · exact ⟨2, hrow⟩
      · exact ⟨3, hrow⟩
      · exact ⟨4, hrow⟩
      · exact ⟨5, hrow⟩
      · exact ⟨6, hrow⟩
      · exact ⟨7, hrow⟩
    obtain ⟨position, rfl, rfl⟩ := hrow
    exact digitRow_untouched h
  · exact exec_emit_untouched h fun _ => planEmit_ok
  · exact exec_emit_untouched h fun _ => planEmit_ok
  · exact exec_emit_untouched h fun _ has => (planScanLimitCommand_ok has).2
  · exact exec_emit_untouched h fun _ => planEmit_ok
  · exact exec_emit_untouched h fun _ => planEmit_ok

/-! ## What the configuration operations leave -/

/-- A next state of an operation of the controller is its own plan performed. -/
theorem exec_next_of_controller {i : Instr} {s t : State} {p : Plan} (hi : planOf i s = whenConstructed s p)
    (h : exec i s = .next t) : ∃ as, p = .ok as ∧ t = perform as s := by
  obtain ⟨_, as, hplan, rfl⟩ := exec_next h
  rw [hi] at hplan
  obtain ⟨_, hplan⟩ := whenConstructed_ok hplan
  exact ⟨as, hplan, rfl⟩

/-- A state leaves itself alone. -/
theorem Untouched.refl (s : State) (stored : Nat → Prop) : Untouched s s stored :=
  ⟨rfl, rfl, rfl, rfl, rfl, rfl, fun _ _ => rfl⟩

/-- The frame of a register write with its Command: what holds of the registers before and after the write holds of
those left, the transfer completing or not. -/
theorem perform_setting_frame (σ : Setting) (s : State) {P : DeviceConfig → Prop} {stored : Nat → Prop}
    (hnew : P (σ.dev s.dev)) (hold : P s.dev) (hstored : stored (opcodeAddress σ.command.op)) :
    P (perform σ.actions s).dev ∧ Untouched s (perform σ.actions s) stored := by
  obtain ⟨hdev | hsame, hrest⟩ := perform_write_emit_frame (act_settingWrite σ s) hstored
  · exact ⟨by rw [Setting.actions, hdev]; exact hnew, hrest⟩
  · exact ⟨by rw [Setting.actions, hsame]; exact hold, hrest⟩

theorem setIntensity_frame {s t : State} {level : Int} (h : exec (.setIntensity level) s = .next t) :
    t.dev = { s.dev with intensity := t.dev.intensity } ∧
      Untouched s t (fun a => inRange? 16 level ≠ none ∧ a = opcodeAddress .intensity) := by
  obtain ⟨as, hplan, rfl⟩ := exec_next_of_controller rfl h
  obtain ⟨_, rfl⟩ | ⟨l, hl, rfl⟩ := planSetIntensity_ok hplan
  · exact ⟨rfl, Untouched.refl s _⟩
  · exact perform_setting_frame (.intensity l) s (P := fun d => d = { s.dev with intensity := d.intensity }) rfl rfl
      ⟨by rw [hl]; nofun, rfl⟩

theorem setScanLimit_frame {s t : State} {limit : Int} (h : exec (.setScanLimit limit) s = .next t) :
    t.dev = { s.dev with scanLimit := t.dev.scanLimit } ∧
      Untouched s t (fun a => inRange? 8 limit ≠ none ∧ a = opcodeAddress .scanLimit) := by
  obtain ⟨as, hplan, rfl⟩ := exec_next_of_controller rfl h
  obtain ⟨_, rfl⟩ | ⟨l, hl, rfl⟩ := planSetScanLimit_ok hplan
  · exact ⟨rfl, Untouched.refl s _⟩
  · exact perform_setting_frame (.scanLimit l) s (P := fun d => d = { s.dev with scanLimit := d.scanLimit }) rfl rfl
      ⟨by rw [hl]; nofun, rfl⟩

/-- Settles O42: each accepted operand is a register write with its Command, each rejected one the empty plan. -/
theorem configurationOperationsFrame : Obligations.ConfigurationOperationsFrame := by
  refine fun s t => ⟨fun level => setIntensity_frame, fun limit => setScanLimit_frame, fun enable h => ?_,
    fun enable h => ?_, fun h => ?_⟩
  · obtain ⟨as, hplan, rfl⟩ := exec_next_of_controller rfl h
    obtain rfl := Except.ok.inj hplan
    exact perform_setting_frame (.shutdown enable) s (P := fun d => d = { s.dev with shutdownF := d.shutdownF }) rfl rfl
      rfl
  · obtain ⟨as, hplan, rfl⟩ := exec_next_of_controller rfl h
    obtain rfl := Except.ok.inj hplan
    exact perform_setting_frame (.displayTest enable) s (P := fun d => d = { s.dev with testF := d.testF }) rfl rfl rfl
  · obtain ⟨_, as, hplan, rfl⟩ := exec_next h
    obtain rfl := Except.ok.inj hplan
    exact perform_setting_frame .decodeMode s (P := fun d => d = { s.dev with decodeMode := d.decodeMode }) rfl rfl rfl

end Sys2Proof.Machine
end

section
/-! PROOFS, family other: the digit operations (R150 to R152) and the lookups (R110, R111). -/

namespace Sys2Proof.Machine

open Sys2Proof

/-! ## CLEARDIGIT and SETCHAR -/

theorem planClearDigit_out {index : Int} (h : index < 0 ∨ 7 < index) :
    planClearDigit index = .error .cleardigitIndexOutOfRange := by
  have hnone : inRange? 8 index = none := inRange?_eq_none.2 (by omega)
  simp [planClearDigit, hnone]

/-- Settles O19: an index in range gives the plan of one Command, any other a refusal. -/
theorem clearDigitWritesTheBlank : Obligations.ClearDigitWritesTheBlank := by
  refine ⟨fun _ _ _ _ => rfl, fun s index hs => ⟨?_, fun hout => ?_⟩⟩
  · rintro i rfl hc
    exact exec_emits_of_accepts (cs := [⟨.digit i, 0x00⟩]) hs rfl (planClearDigit_val i) hc
  · exact exec_refused_of_accepts hs rfl (planClearDigit_out hout)

theorem planSetChar_out (p : Params) {index : Int} (h : index < 0 ∨ 7 < index) (ascii : Int) (dp : Bool) :
    planSetChar p index ascii dp = .error .setcharIndexOutOfRange := by
  have hnone : inRange? 8 index = none := inRange?_eq_none.2 (by omega)
  simp [planSetChar, hnone]

/-- With the index in range SETCHAR writes what the character's pattern is, or refuses as its lookup does. -/
theorem planSetChar_val (p : Params) (i : Fin 8) (ascii : Int) (dp : Bool) :
    planSetChar p (i.val : Int) ascii dp = planDigitWrite i (setCharPattern p ascii) dp := by
  simp [planSetChar]

/-- Below 48 the pattern is blank, by SETCHAR's own test or by CHARPATTERN's. -/
theorem setCharPattern_blank (p : Params) {ascii : Int} (h : ascii < 48) : setCharPattern p ascii = .ok 0x00 := by
  unfold setCharPattern
  split
  · rfl
  · exact charPattern_blank (by omega) h

theorem setCharPattern_shown (p : Params) {ascii : Int} (h : 48 ≤ ascii) :
    setCharPattern p ascii = charPattern p.charRom ascii :=
  if_neg (by omega)

theorem digitData_blank (dp : Bool) : digitData 0x00 dp = if dp then 0x80 else 0x00 := by
  cases dp <;> rfl

/-- Settles O22: the index first, then the four ranges of the character. -/
theorem setCharSendsTheCharacter : Obligations.SetCharSendsTheCharacter := by
  refine ⟨fun _ _ _ _ => rfl, fun s index ascii dp hs => ⟨fun hout => ?_, ?_⟩⟩
  · exact exec_refused_of_accepts hs rfl (planSetChar_out s.params hout ascii dp)
  rintro i rfl
  have hsent : ∀ g, setCharPattern s.params ascii = .ok g → s.CanTransfer 1 →
      exec (.setChar (i.val : Int) ascii dp) s = .next (s.afterCommands [⟨.digit i, digitData g dp⟩]) :=
    fun g hg hc => exec_emits_of_accepts (cs := [digitCommand i g dp]) hs rfl
      (by rw [planSetChar_val, hg]; rfl) hc
  have hrefused : ∀ r, setCharPattern s.params ascii = .error r →
      exec (.setChar (i.val : Int) ascii dp) s = .refused r :=
    fun r hr => exec_refused_of_accepts hs rfl (by rw [planSetChar_val, hr]; rfl)
  refine ⟨fun hlow hc => ?_, fun k g hk hascii hg hc => ?_, fun ⟨hend, hascii⟩ => ?_, fun hascii => ?_⟩
  · rw [← digitData_blank]
    exact hsent _ (setCharPattern_blank s.params hlow) hc
  · refine hsent g ?_ hc
    rw [setCharPattern_shown s.params (by omega)]
    subst hk
    exact charPattern_entry hascii hg
  · refine hrefused _ ?_
    rw [setCharPattern_shown s.params (by omega)]
    exact charPattern_pastEnd hend hascii
  · refine hrefused _ ?_
    rw [setCharPattern_shown s.params (by omega)]
    exact charPattern_notAscii (.inr hascii)

/-! ## What SETDIGIT's data is -/

/-- SETDIGIT's plan sends nothing, or one glyph of DIGIT_ROM. -/
theorem planSetDigit_glyph {p : Params} {index value : Int} {dp : Bool} {as : List Action}
    (h : planSetDigit p index value dp = .ok as) :
    as = [] ∨ ∃ (i : Fin 8) (v : Fin 16), as = [.emit (digitCommand i (p.digitRom.get v) dp)] := by
  by_cases hout : index < 0 ∨ 7 < index ∨ value < 0 ∨ 15 < value
  · rw [planSetDigit_out hout] at h
    exact .inl (Except.ok.inj h).symm
  · obtain ⟨i, rfl⟩ : ∃ i : Fin 8, index = (i.val : Int) := ⟨⟨index.toNat, by omega⟩, by simp; omega⟩
    obtain ⟨v, rfl⟩ : ∃ v : Fin 16, value = (v.val : Int) := ⟨⟨value.toNat, by omega⟩, by simp; omega⟩
    rw [planSetDigit_val] at h
    exact .inr ⟨i, v, (Except.ok.inj h).symm⟩

/-- A byte whose bits 0 to 7 are all clear is zero. -/
theorem byte_eq_zero {g : Byte} (hlow : g.extractLsb' 0 7 = 0) (htop : g.getLsbD 7 = false) : g = 0 := by
  rw [← digitFields_eta g, hlow, htop]
  rfl

theorem digitData_segments (g : Byte) (dp : Bool) : (digitData g dp).extractLsb' 0 7 = g.extractLsb' 0 7 := by
  ext k hk
  simp [BitVec.getElem_extractLsb', digitData_getLsbD_of_lt g dp hk]

/-- R112 (a) and (b) together: some segment other than the point is lit. -/
theorem digitRom_segments_ne_zero {p : Params} (hp : p.wf) (v : Fin 16) :
    (p.digitRom.get v).extractLsb' 0 7 ≠ 0 := by
  obtain ⟨hdigitRom, _, _⟩ := hp
  obtain ⟨htop, hne⟩ := hdigitRom v
  exact fun hlow => hne (byte_eq_zero hlow htop)

/-- Settles O21: the one Command that SETDIGIT can send carries a glyph of DIGIT_ROM. -/
theorem setDigitDataIsNeverBlank : Obligations.SetDigitDataIsNeverBlank := by
  intro s t index value dp hp h
  obtain ⟨as, new, hplan, hnew, hcmd⟩ := exec_cmd h
  obtain ⟨_, hplan⟩ := whenConstructed_ok hplan
  refine ⟨new, hcmd, fun c hc => ?_⟩
  have hmem := mem_commandsOf.1 (hnew.subset hc)
  obtain rfl | ⟨i, v, rfl⟩ := planSetDigit_glyph hplan
  · cases hmem
  · obtain rfl := Action.emit.inj (List.mem_singleton.1 hmem)
    exact ⟨by rw [digitCommand, digitData_segments]; exact digitRom_segments_ne_zero hp v,
      digitData_digitRom_getLsbD_seven hp v dp⟩

/-! ## What the digit operations leave -/

/-- The frame of one digit write to the position that an operand names. -/
theorem perform_digitWrite_untouched {as : List Action} {r : Option (Fin 8)}
    (h : ∃ i d, r = some i ∧ as = [.emit ⟨.digit i, d⟩]) (s : State) :
    (perform as s).dev = s.dev ∧
      Untouched s (perform as s) (fun a => ∃ position, r = some position ∧ a = opcodeAddress (.digit position)) := by
  obtain ⟨i, d, hi, rfl⟩ := h
  refine perform_emits_untouched (fun a ha => ⟨_, List.mem_singleton.1 ha⟩) (fun c hc => ⟨i, hi, ?_⟩) s
  rw [Action.emit.inj (List.mem_singleton.1 hc)]

/-- Settles O43: each plan is one digit write to the position of the index, or empty. -/
theorem digitOperationsFrame : Obligations.DigitOperationsFrame := by
  rintro s t index value dp (h | h | h)
  · obtain ⟨as, hplan, rfl⟩ := exec_next_of_controller rfl h
    exact perform_digitWrite_untouched (planClearDigit_ok hplan) s
  · obtain ⟨as, hplan, rfl⟩ := exec_next_of_controller rfl h
    obtain rfl | hsent := planSetDigit_ok hplan
    · exact ⟨rfl, Untouched.refl s _⟩
    · exact perform_digitWrite_untouched hsent s
  · obtain ⟨as, hplan, rfl⟩ := exec_next_of_controller rfl h
    exact perform_digitWrite_untouched (planSetChar_ok hplan) s

/-! ## Lookups -/

/-- A lookup that finds its entry answers it and does nothing else. -/
theorem exec_answer {i : Instr} {s : State} {r : Except Refusal Byte} {g : Byte} (ho : s.secondOwner = false)
    (hi : planOf i s = planLookup r) (hr : r = .ok g) (hb : s.blocked = false) :
    exec i s = .next { s with rsp := s.rsp ++ [g] } := by
  rw [exec_of_plan (as := [.respond g]) ho (by rw [hi, hr]; rfl), perform_cons _ _ hb]
  rfl

theorem exec_answer_refused {i : Instr} {s : State} {r : Except Refusal Byte} {e : Refusal} (ho : s.secondOwner = false)
    (hi : planOf i s = planLookup r) (hr : r = .error e) : exec i s = .refused e :=
  exec_of_refusal ho (by rw [hi, hr]; rfl)

/-- Settles O33: the value names an entry of DIGIT_ROM, or the lookup refuses. -/
theorem digitPatternAnswersTheRom : Obligations.DigitPatternAnswersTheRom := by
  refine ⟨fun _ _ _ _ => rfl, fun s value ho => ⟨?_, fun hout => ?_⟩⟩
  · rintro v rfl hb
    exact exec_answer ho rfl (digitPattern_val s.params.digitRom v) hb
  · exact exec_answer_refused ho rfl (digitPattern_out hout)

/-- Settles O34, range by range of the code. -/
theorem charPatternAnswersTheTable : Obligations.CharPatternAnswersTheTable := by
  refine ⟨fun _ _ _ _ => rfl, fun s code ho =>
    ⟨fun ⟨hpos, hlow⟩ hb => ?_, fun k g hk hascii hg hb => ?_, fun ⟨hend, hascii⟩ => ?_, fun hout => ?_⟩⟩
  · exact exec_answer ho rfl (charPattern_blank hpos hlow) hb
  · subst hk
    exact exec_answer ho rfl (charPattern_entry hascii hg) hb
  · exact exec_answer_refused ho rfl (charPattern_pastEnd hend hascii)
  · exact exec_answer_refused ho rfl (charPattern_notAscii hout)

/-- A lookup performed adds its one answer, or on a stuck block nothing. -/
theorem perform_answer_frame (pattern : Byte) (s : State) :
    { perform [.respond pattern] s with rsp := s.rsp } = s ∧
      ∃ answer, (perform [.respond pattern] s).rsp = s.rsp ++ answer ∧ answer.length ≤ 1 := by
  cases hb : s.blocked with
  | true =>
    rw [perform_of_blocked _ hb]
    exact ⟨rfl, [], (List.append_nil _).symm, by decide⟩
  | false =>
    rw [perform_cons _ _ hb]
    exact ⟨rfl, [pattern], rfl, le_refl 1⟩

/-- Settles O45: a lookup's plan is one response. -/
theorem lookupsChangeOnlyTheResponse : Obligations.LookupsChangeOnlyTheResponse := by
  rintro s t v (h | h)
  all_goals
    obtain ⟨_, as, hplan, rfl⟩ := exec_next h
    obtain ⟨pattern, _, rfl⟩ := planLookup_ok hplan
    exact perform_answer_frame pattern s

end Sys2Proof.Machine
end

section
/-! PROOFS, family other: DISPLAYNUMBER (R170, R171, R174, R175). -/

namespace Sys2Proof.Machine

open Sys2Proof

/-! ## The Commands sent -/

/-- The value shown, as R170 and R202 give it. -/
theorem shownValue_eq {n : Nat} {value : Int} {v0 : Nat}
    (h : ((value < 0 ∨ 10 ^ n ≤ value) ∧ v0 = 0) ∨ (value = (v0 : Int) ∧ v0 < 10 ^ n)) : shownValue n value = v0 := by
  obtain ⟨hout, rfl⟩ | ⟨rfl, hlt⟩ := h
  · exact shownValue_out hout
  · have hin : ¬ ((v0 : Int) < 0 ∨ (v0 : Int) ≥ (10 ^ n : Nat)) := by omega
    exact (if_neg hin).trans (Int.toNat_natCast v0)

theorem planOf_displayNumber {s : State} {n : Fin 9} (hn : s.dev.numDigits = some n) (value : Int) (lz : Bool) :
    planOf (.displayNumber value lz) s = whenConstructed s (planDisplayNumber s.params n value lz) := by
  simp only [planOf, withDigitCount_some _ hn]

/-- On an accepting block DISPLAYNUMBER sends the Command of each position, in ascending order. -/
theorem exec_displayNumber {s : State} {n : Fin 9} {value : Int} {lz : Bool} {v0 : Nat} (hs : s.Accepts)
    (hn : s.dev.numDigits = some n) (hc : s.CanTransfer n.val) (hv : shownValue n value = v0) :
    exec (.displayNumber value lz) s =
      .next (s.afterCommands ((List.range n.val).map (numberCommand s.params lz v0))) := by
  refine exec_emits_of_accepts hs (planOf_displayNumber hn value lz) ?_ (by simpa using hc)
  rw [planDisplayNumber_eq, hv]

/-- Settles O24: the number shown is R170's, and each position's Command follows from it. -/
theorem displayNumberShowsTheDecimalDigits : Obligations.DisplayNumberShowsTheDecimalDigits :=
  ⟨fun _ _ _ _ => rfl, fun _ _ _ _ _ hs hn hc hv => exec_displayNumber hs hn hc (shownValue_eq hv)⟩

/-! ## SigDigits -/

/-- A number has a digit at a position exactly where it reaches the power of ten there. -/
theorem lt_sigDigits_iff_of_pos {units : ZeroUnits} {v i : Nat} (hpos : 0 < v) (hv : v < 10 ^ 8) :
    i < sigDigits units v ↔ 10 ^ i ≤ v := by
  rw [lt_sigDigits_iff hv]
  exact or_iff_left fun ⟨h0, _⟩ => hpos.ne' h0

/-- Settles O26, from which positions lie within the number. -/
theorem sigDigitsIsTheLeastLength : Obligations.SigDigitsIsTheLeastLength := by
  refine ⟨fun units v hpos hv => ⟨?_, ?_, fun k _ hk => ?_⟩, rfl, rfl⟩
  · exact (lt_sigDigits_iff_of_pos hpos hv).2 hpos
  · exact not_le.1 fun hle => lt_irrefl _ ((lt_sigDigits_iff_of_pos hpos hv).2 hle)
  · exact not_lt.1 fun hlt => absurd ((lt_sigDigits_iff_of_pos hpos hv).1 hlt) (not_le.2 hk)

/-! ## The decimal digits -/

/-- The `n` lowest decimal digits of a number, the ones first (R175 (a)). -/
def decimalDigits (n v : Nat) : List Nat := (List.range n).map fun i => v / 10 ^ i % 10

theorem ofDigits_decimalDigits (n v : Nat) : Nat.ofDigits 10 (decimalDigits n v) = v % 10 ^ n := by
  induction n with
  | zero => simp [decimalDigits, Nat.mod_one]
  | succ n ih =>
    have hsplit : decimalDigits (n + 1) v = decimalDigits n v ++ [v / 10 ^ n % 10] := by
      simp [decimalDigits, List.range_succ]
    have hlength : (decimalDigits n v).length = n := by simp [decimalDigits]
    rw [hsplit, Nat.ofDigits_append, Nat.ofDigits_singleton, hlength, ih, pow_succ, Nat.mod_mul]

theorem ofDigits_decimalDigits_of_lt {n v : Nat} (h : v < 10 ^ n) : Nat.ofDigits 10 (decimalDigits n v) = v := by
  rw [ofDigits_decimalDigits, Nat.mod_eq_of_lt h]

/-- With leading zeros the Command of a position is the glyph of its digit. -/
theorem numberCommand_leadingZeros (p : Params) (v0 i : Nat) :
    numberCommand p true v0 i = digitAt i (p.glyph (v0 / 10 ^ i % 10)) :=
  if_pos (.inl rfl)

theorem map_numberCommand_leadingZeros (p : Params) (n v : Nat) :
    (List.range n).map (numberCommand p true v) =
      (decimalDigits n v).zipIdx.map fun x => digitAt x.2 (p.glyph x.1) := by
  apply List.ext_getElem
  · simp [decimalDigits]
  · intro i _ _
    simp [decimalDigits, numberCommand_leadingZeros]

/-- On an accepting block a number in range is shown as itself. -/
theorem exec_displayNumber_inRange {s : State} {n : Fin 9} {v : Nat} {lz : Bool} (hs : s.Accepts)
    (hn : s.dev.numDigits = some n) (hc : s.CanTransfer n.val) (hv : v < 10 ^ n.val) :
    exec (.displayNumber (v : Int) lz) s =
      .next (s.afterCommands ((List.range n.val).map (numberCommand s.params lz v))) :=
  exec_displayNumber hs hn hc (shownValue_eq (.inr ⟨rfl, hv⟩))

/-- Settles O27: the digits are the remainders of R170's loop. -/
theorem shownDigitsAddUpToTheNumber : Obligations.ShownDigitsAddUpToTheNumber := by
  intro s n v hs hn hc hv
  refine ⟨decimalDigits n.val v, by simp [decimalDigits], fun d hd => ?_, ofDigits_decimalDigits_of_lt hv, ?_⟩
  · obtain ⟨i, _, rfl⟩ := List.mem_map.1 hd
    exact Nat.le_of_lt_succ (Nat.mod_lt _ (by decide))
  · rw [exec_displayNumber_inRange hs hn hc hv, map_numberCommand_leadingZeros]

/-- Pairwise different glyphs tell the digits apart. -/
theorem glyph_injective {p : Params} (h : Function.Injective p.digitRom.get) {d e : Nat} (hd : d < 16) (he : e < 16)
    (heq : p.glyph d = p.glyph e) : d = e := by
  have hval := congrArg Fin.val (h heq)
  simpa [Fin.ofNat, Nat.mod_eq_of_lt hd, Nat.mod_eq_of_lt he] using hval

/-- The Commands of a number with leading zeros determine its digits. -/
theorem decimalDigits_eq_of_commands {p : Params} (h : Function.Injective p.digitRom.get) {n v w : Nat}
    (heq : (List.range n).map (numberCommand p true v) = (List.range n).map (numberCommand p true w)) :
    decimalDigits n v = decimalDigits n w := by
  refine List.map_congr_left fun i hi => ?_
  have hi' := List.map_inj_left.1 heq i hi
  rw [numberCommand_leadingZeros, numberCommand_leadingZeros] at hi'
  exact glyph_injective h (by omega) (by omega) (congrArg Command.data hi')

/-- Settles O28: equal states have equal CMD, so equal digits, so equal numbers. -/
theorem shownNumberIsDeterminedByItsCommands : Obligations.ShownNumberIsDeterminedByItsCommands := by
  intro s t n v w hs hn hc hglyphs hv hw hrunv hrunw
  rw [exec_displayNumber_inRange hs hn hc hv] at hrunv
  rw [exec_displayNumber_inRange hs hn hc hw, ← hrunv] at hrunw
  have hcmd := congrArg State.cmd (Host.Outcome.next.inj hrunw)
  have hdigits := decimalDigits_eq_of_commands hglyphs (List.append_cancel_left hcmd)
  calc v = Nat.ofDigits 10 (decimalDigits n.val v) := (ofDigits_decimalDigits_of_lt hv).symm
    _ = Nat.ofDigits 10 (decimalDigits n.val w) := by rw [← hdigits]
    _ = w := ofDigits_decimalDigits_of_lt hw

end Sys2Proof.Machine
end

section
/-! PROOFS, family other: DISPLAYTIME and DISPLAYMINUTES (R172, R173). -/

namespace Sys2Proof.Machine

open Sys2Proof

/-! ## DISPLAYTIME -/

theorem planOf_displayTime {s : State} {n : Fin 9} (hn : s.dev.numDigits = some n) (hour minute : Int) :
    planOf (.displayTime hour minute) s = whenConstructed s (planDisplayTime s.params n hour minute) := by
  simp only [planOf, withDigitCount_some _ hn]

theorem planDisplayTime_out (p : Params) {hour minute : Int} (h : minute < 0 ∨ 59 < minute ∨ 23 < hour) :
    planDisplayTime p 4 hour minute = .error .displaytimeOutsideClockRange :=
  if_pos h

/-- The Commands of a time inside the clock's range: the minute's pair, then the hour's (R172). -/
def clockCommands (p : Params) (hour minute : Nat) : List Command := pairCommands p 0 minute ++ pairCommands p 2 hour

theorem planDisplayTime_clock (p : Params) {hour minute : Nat} (hh : hour ≤ 23) (hm : minute ≤ 59) :
    planDisplayTime p 4 (hour : Int) (minute : Int) = .ok ((clockCommands p hour minute).map Action.emit) := by
  rw [planDisplayTime_eq p hm (by omega), planHour_shown p hh]
  simp [clockCommands]

theorem planDisplayTime_hourless (p : Params) {hour : Int} {minute : Nat} (hh : hour < 0) (hm : minute ≤ 59) :
    planDisplayTime p 4 hour (minute : Int) =
      .ok ((pairCommands p 0 minute ++ [digitAt 2 0x00, digitAt 3 0x00]).map Action.emit) := by
  rw [planDisplayTime_eq p hm (by omega), planHour_negative p hh]
  simp

/-- Settles O29: the digit count first, then the clock's range, then the hour's sign. -/
theorem displayTimeShowsTheClock : Obligations.DisplayTimeShowsTheClock := by
  refine ⟨fun _ _ _ _ => rfl, fun s n hour minute hs hn => ⟨fun hne => ?_, ?_, ?_, ?_⟩⟩
  · exact exec_nop_of_accepts hs (planOf_displayTime hn hour minute)
      (planDisplayTime_otherCount s.params hne hour minute)
  · rintro rfl hout
    exact exec_refused_of_accepts hs (planOf_displayTime hn hour minute) (planDisplayTime_out s.params hout)
  · rintro h m rfl rfl hm rfl hh hc
    exact exec_emits_of_accepts hs (planOf_displayTime hn _ _) (planDisplayTime_clock s.params hh hm) hc
  · rintro m rfl rfl hm hh hc
    exact exec_emits_of_accepts hs (planOf_displayTime hn _ _) (planDisplayTime_hourless s.params hh hm) hc

/-! ## DISPLAYMINUTES -/

theorem planOf_displayMinutes {s : State} {n : Fin 9} (hn : s.dev.numDigits = some n) (total : Int) :
    planOf (.displayMinutes total) s = whenConstructed s (planDisplayMinutes s.params n total) := by
  simp only [planOf, withDigitCount_some _ hn]

theorem planDisplayMinutes_negative (p : Params) {total : Int} (h : total < 0) :
    planDisplayMinutes p 4 total = .error .displayminutesNegative :=
  if_pos h

/-- DISPLAYMINUTES is DISPLAYTIME of the remainder's hour and minute (R173). -/
theorem planDisplayMinutes_nat (p : Params) (m : Nat) :
    planDisplayMinutes p 4 (m : Int) =
      planDisplayTime p 4 ((m % 1440 / 60 : Nat) : Int) ((m % 1440 % 60 : Nat) : Int) := by
  have hpos : ¬ ((m : Int) < 0) := by omega
  simp [planDisplayMinutes, hpos]

theorem planDisplayMinutes_clock (p : Params) (m : Nat) :
    planDisplayMinutes p 4 (m : Int) = .ok ((clockCommands p (m % 1440 / 60) (m % 1440 % 60)).map Action.emit) := by
  rw [planDisplayMinutes_nat, planDisplayTime_clock p (by omega) (by omega)]

/-- Settles O30: the remainder is always inside the clock's range. -/
theorem displayMinutesWrapsTheDay : Obligations.DisplayMinutesWrapsTheDay := by
  refine ⟨fun _ _ _ _ => rfl, fun s n total hs hn => ⟨fun hne => ?_, ?_, ?_⟩⟩
  · exact exec_nop_of_accepts hs (planOf_displayMinutes hn total) (planDisplayMinutes_otherCount s.params hne total)
  · rintro rfl hneg
    exact exec_refused_of_accepts hs (planOf_displayMinutes hn total) (planDisplayMinutes_negative s.params hneg)
  · rintro m rfl rfl
    refine ⟨?_, fun hc => ?_⟩
    · rw [exec_eq_plan, exec_eq_plan, planOf_displayMinutes hn, planOf_displayTime hn, planDisplayMinutes_nat]
    · exact exec_emits_of_accepts hs (planOf_displayMinutes hn _) (planDisplayMinutes_clock s.params m) hc

end Sys2Proof.Machine
end

section
/-! PROOFS, family other: what the operations of R170 to R173 share: they are made of single-digit operations (R94),
light no decimal point, and leave all but their digit registers alone. -/

namespace Sys2Proof.Machine

open Sys2Proof

/-! ## The expansions -/

/-- On a constructed block with these parameters the instruction's plan is this one Command. -/
def Sends (p : Params) (i : Instr) (c : Command) : Prop :=
  ∀ s : State, s.params = p → s.constructed = true → planOf i s = .ok [.emit c]

theorem setDigit_sends (p : Params) {i v : Nat} (hi : i < 8) (hv : v < 16) :
    Sends p (.setDigit (i : Int) (v : Int) false) (digitAt i (p.glyph v)) := by
  rintro s rfl hconstructed
  rw [planOf, whenConstructed_true _ hconstructed, planSetDigit_nat s.params hi hv]

theorem clearDigit_sends (p : Params) {i : Nat} (hi : i < 8) : Sends p (.clearDigit (i : Int)) (digitAt i 0x00) := by
  rintro s rfl hconstructed
  rw [planOf, whenConstructed_true _ hconstructed, planClearDigit_nat hi]

/-- Instructions that send one Command each are, one after the other, the plan of these Commands, a hung transfer
included. -/
theorem execAll_sends {p : Params} {is : List Instr} {cs : List Command} (h : List.Forall₂ (Sends p) is cs) {s : State}
    (hp : s.params = p) (hs : s.Accepts) : execAll is s = .next (perform (cs.map Action.emit) s) := by
  induction h generalizing s with
  | nil => rfl
  | cons hi _ ih =>
    rename_i i c is cs _
    obtain ⟨ho, hconstructed⟩ := hs
    have hexec : exec i s = .next (perform [.emit c] s) := exec_of_plan ho (hi s hp hconstructed)
    obtain ⟨hparams, _, howner⟩ := perform_static [.emit c] s
    obtain ⟨_, hsame, _⟩ := perform_emits_frame (as := [.emit c]) (fun a ha => ⟨c, List.mem_singleton.1 ha⟩) s
    rw [execAll, hexec]
    simp only
    rw [ih (hparams.trans hp) ⟨howner.trans ho, hsame.trans hconstructed⟩, ← perform_append]
    rfl

/-- An accepting block performs a plan of Commands as the single-digit operations that send them. -/
theorem exec_eq_execAll {i : Instr} {s : State} {p : Plan} {is : List Instr} {cs : List Command} (hs : s.Accepts)
    (hi : planOf i s = whenConstructed s p) (hp : p = .ok (cs.map Action.emit))
    (h : List.Forall₂ (Sends s.params) is cs) : exec i s = execAll is s := by
  rw [execAll_sends h rfl hs]
  obtain ⟨ho, hconstructed⟩ := hs
  rw [exec_of_plan ho (by rw [hi, whenConstructed_true _ hconstructed, hp])]

/-- The single-digit operation of R170 at one position. -/
theorem numberCommand_sends (p : Params) (lz : Bool) {v0 i : Nat} (hv : v0 < 10 ^ 8) (hi : i < 8) :
    Sends p
      (if lz = true ∨ i < sigDigits p.numZeroUnits v0
        then .setDigit (i : Int) ((v0 / 10 ^ i % 10 : Nat) : Int) false
        else .clearDigit (i : Int))
      (numberCommand p lz v0 i) := by
  simp only [numberCommand, ← lt_sigDigits_iff hv]
  split
  · exact setDigit_sends p hi (by omega)
  · exact clearDigit_sends p hi

theorem displayNumber_eq_execAll {s : State} {n : Fin 9} {value : Int} {lz : Bool} {v0 : Nat} (hs : s.Accepts)
    (hn : s.dev.numDigits = some n) (hv : shownValue n value = v0) :
    exec (.displayNumber value lz) s =
      execAll ((List.range n.val).map fun i =>
        if lz = true ∨ i < sigDigits s.params.numZeroUnits v0
        then .setDigit (i : Int) ((v0 / 10 ^ i % 10 : Nat) : Int) false
        else .clearDigit (i : Int)) s := by
  refine exec_eq_execAll hs (planOf_displayNumber hn value lz) (planDisplayNumber_eq s.params n value lz) ?_
  have hn8 : n.val ≤ 8 := Nat.le_of_lt_succ n.isLt
  have hlt : v0 < 10 ^ 8 := hv ▸ lt_of_lt_of_le (shownValue_lt n value) (Nat.pow_le_pow_right (by decide) hn8)
  rw [hv, List.forall₂_map_left_iff, List.forall₂_map_right_iff, List.forall₂_same]
  intro i hi
  exact numberCommand_sends s.params lz hlt (lt_of_lt_of_le (List.mem_range.1 hi) hn8)

/-- A pair of R172, ones digit at the lower position. -/
theorem pairCommands_sends (p : Params) {position v : Nat} (hposition : position + 1 < 8) (hv : v < 100) :
    List.Forall₂ (Sends p)
      [.setDigit (position : Int) ((v % 10 : Nat) : Int) false,
        .setDigit ((position + 1 : Nat) : Int) ((v / 10 : Nat) : Int) false]
      (pairCommands p position v) :=
  .cons (setDigit_sends p (by omega) (by omega)) (.cons (setDigit_sends p hposition (by omega)) .nil)

theorem displayTime_eq_execAll {s : State} {hour minute : Int} (hs : s.Accepts) (hn : s.dev.numDigits = some 4)
    (hm0 : 0 ≤ minute) (hm : minute ≤ 59) (hh : hour ≤ 23) :
    exec (.displayTime hour minute) s =
      execAll ([.setDigit 0 (minute % 10) false, .setDigit 1 (minute / 10) false] ++
        (if hour < 0 then [.clearDigit 2, .clearDigit 3]
         else [.setDigit 2 (hour % 10) false, .setDigit 3 (hour / 10) false])) s := by
  obtain ⟨m, rfl⟩ := Int.eq_ofNat_of_zero_le hm0
  have hminute := pairCommands_sends s.params (position := 0) (v := m) (by decide) (by omega)
  by_cases hneg : hour < 0
  · rw [if_pos hneg]
    refine exec_eq_execAll hs (planOf_displayTime hn _ _) (planDisplayTime_hourless s.params hneg (by omega)) ?_
    exact List.rel_append hminute
      (.cons (clearDigit_sends s.params (i := 2) (by decide))
        (.cons (clearDigit_sends s.params (i := 3) (by decide)) .nil))
  · rw [if_neg hneg]
    obtain ⟨h, rfl⟩ := Int.eq_ofNat_of_zero_le (not_lt.1 hneg)
    refine exec_eq_execAll hs (planOf_displayTime hn _ _) (planDisplayTime_clock s.params (by omega) (by omega)) ?_
    exact List.rel_append hminute (pairCommands_sends s.params (position := 2) (v := h) (by decide) (by omega))

/-- Settles O31: both plans are the Commands of their single-digit operations. -/
theorem macroOperationsAreTheirExpansions : Obligations.MacroOperationsAreTheirExpansions :=
  ⟨fun _ _ _ _ _ hs hn hv => displayNumber_eq_execAll hs hn (shownValue_eq hv),
    fun _ _ _ hs hn hm0 hm hh => displayTime_eq_execAll hs hn hm0 hm hh⟩

/-! ## No decimal point -/

/-- A digit write with bit 7 clear. -/
def Pointless (c : Command) : Prop := c.data.getLsbD 7 = false ∧ ∃ position, c.op = .digit position

theorem digitAt_glyph_pointless {p : Params} (hp : p.wf) (i v : Nat) : Pointless (digitAt i (p.glyph v)) := by
  obtain ⟨hdigitRom, _, _⟩ := hp
  obtain ⟨hclear, _⟩ := hdigitRom (Fin.ofNat 16 v)
  exact ⟨hclear, _, rfl⟩

theorem digitAt_blank_pointless (i : Nat) : Pointless (digitAt i 0x00) := ⟨BitVec.getLsbD_zero, _, rfl⟩

theorem numberCommand_pointless {p : Params} (hp : p.wf) (lz : Bool) (v0 i : Nat) :
    Pointless (numberCommand p lz v0 i) := by
  unfold numberCommand
  split
  · exact digitAt_glyph_pointless hp _ _
  · exact digitAt_blank_pointless _

theorem pairCommands_pointless {p : Params} (hp : p.wf) (position v : Nat) :
    ∀ c ∈ pairCommands p position v, Pointless c := by
  simp [pairCommands, digitAt_glyph_pointless hp]

theorem planDisplayNumber_pointless {p : Params} (hp : p.wf) {n : Fin 9} {value : Int} {lz : Bool} {as : List Action}
    (h : planDisplayNumber p n value lz = .ok as) : ∀ c ∈ commandsOf as, Pointless c := by
  rw [planDisplayNumber_eq] at h
  obtain rfl := Except.ok.inj h
  rw [commandsOf_emits]
  intro c hc
  obtain ⟨i, _, rfl⟩ := List.mem_map.1 hc
  exact numberCommand_pointless hp _ _ i

theorem planDisplayTime_pointless {p : Params} (hp : p.wf) {n : Fin 9} {hour minute : Int} {as : List Action}
    (h : planDisplayTime p n hour minute = .ok as) : ∀ c ∈ commandsOf as, Pointless c := by
  by_cases hn : n = 4
  · subst hn
    by_cases hout : minute < 0 ∨ 59 < minute ∨ 23 < hour
    · rw [planDisplayTime_out p hout] at h
      cases h
    obtain ⟨m, rfl⟩ := Int.eq_ofNat_of_zero_le (by omega : 0 ≤ minute)
    by_cases hneg : hour < 0
    · rw [planDisplayTime_hourless p hneg (by omega)] at h
      obtain rfl := Except.ok.inj h
      rw [commandsOf_emits]
      exact List.forall_mem_append.2 ⟨pairCommands_pointless hp 0 m,
        List.forall_mem_cons.2 ⟨digitAt_blank_pointless 2, List.forall_mem_singleton.2 (digitAt_blank_pointless 3)⟩⟩
    · obtain ⟨k, rfl⟩ := Int.eq_ofNat_of_zero_le (not_lt.1 hneg)
      rw [planDisplayTime_clock p (by omega) (by omega)] at h
      obtain rfl := Except.ok.inj h
      rw [commandsOf_emits]
      exact List.forall_mem_append.2 ⟨pairCommands_pointless hp 0 m, pairCommands_pointless hp 2 k⟩
  · rw [planDisplayTime_otherCount p hn] at h
    obtain rfl := Except.ok.inj h
    exact nofun

theorem planDisplayMinutes_pointless {p : Params} (hp : p.wf) {n : Fin 9} {total : Int} {as : List Action}
    (h : planDisplayMinutes p n total = .ok as) : ∀ c ∈ commandsOf as, Pointless c := by
  unfold planDisplayMinutes at h
  split at h
  · obtain rfl := Except.ok.inj h
    exact nofun
  · split at h
    · cases h
    · exact planDisplayTime_pointless hp h

/-- Settles O32: whatever part of the plan is sent, its Commands are glyphs without a point or blanks. -/
theorem numbersAndTimesNeverLightThePoint : Obligations.NumbersAndTimesNeverLightThePoint := by
  intro s t i hp hi h
  obtain ⟨as, new, hplan, hnew, hcmd⟩ := exec_cmd h
  have hpointless : ∀ c ∈ commandsOf as, Pointless c := by
    obtain ⟨value, lz, rfl⟩ | ⟨hour, minute, rfl⟩ | ⟨total, rfl⟩ := hi
    all_goals
      obtain ⟨_, hplan⟩ := whenConstructed_ok hplan
      obtain ⟨n, _, hplan⟩ := withDigitCount_ok hplan
    · exact planDisplayNumber_pointless hp hplan
    · exact planDisplayTime_pointless hp hplan
    · exact planDisplayMinutes_pointless hp hplan
  exact ⟨new, hcmd, fun c hc => hpointless c (hnew.subset hc)⟩

/-! ## What they leave -/

/-- The frame of a plan of writes to the first `n` digit positions. -/
theorem perform_digits_untouched {as : List Action} {n : Nat} (h : ∀ a ∈ as, emitsDigitBelow n a) (s : State) :
    (perform as s).dev = s.dev ∧
      Untouched s (perform as s)
        (fun a => ∃ position : Fin 8, position.val < n ∧ a = opcodeAddress (.digit position)) := by
  refine perform_emits_untouched (fun a ha => (h a ha).isEmit) (fun c hc => ?_) s
  obtain ⟨position, d, hlt, he⟩ := h _ hc
  exact ⟨position, hlt, by rw [Action.emit.inj he]⟩

/-- The frame of a time: empty off four digits, else writes to the first four positions. -/
theorem perform_time_untouched {as : List Action} {n : Fin 9}
    (h : (n ≠ 4 ∧ as = []) ∨ (n = 4 ∧ ∀ a ∈ as, emitsDigitBelow 4 a)) (s : State) :
    (perform as s).dev = s.dev ∧
      Untouched s (perform as s)
        (fun a => n = 4 ∧ ∃ position : Fin 8, position.val < 4 ∧ a = opcodeAddress (.digit position)) := by
  obtain ⟨_, rfl⟩ | ⟨rfl, hdigits⟩ := h
  · exact ⟨rfl, Untouched.refl s _⟩
  · simpa only [true_and] using perform_digits_untouched hdigits s

/-- Settles O44, from what each of the three plans writes to. -/
theorem macroOperationsFrame : Obligations.MacroOperationsFrame := by
  refine fun s t n hn => ⟨fun value lz h => ?_, fun hour minute h => ?_, fun total h => ?_⟩
  · obtain ⟨as, hplan, rfl⟩ := exec_next_of_controller (planOf_displayNumber hn value lz) h
    exact perform_digits_untouched (planDisplayNumber_ok hplan) s
  · obtain ⟨as, hplan, rfl⟩ := exec_next_of_controller (planOf_displayTime hn hour minute) h
    exact perform_time_untouched (planDisplayTime_ok hplan) s
  · obtain ⟨as, hplan, rfl⟩ := exec_next_of_controller (planOf_displayMinutes hn total) h
    exact perform_time_untouched (planDisplayMinutes_ok hplan) s

end Sys2Proof.Machine
end

section
/-! PROOFS, family other: CONSTRUCT (R231 to R234) as its Commands and registers. -/

namespace Sys2Proof.Machine

open Sys2Proof

/-! ## The run that completes -/

theorem constructCommands_length (p : Params) (n : Fin 9) :
    (constructCommands p n).length = if n.val ≤ 7 ∨ p.initScanRaw = true then 5 else 4 := by
  unfold constructCommands constructFirstCommands scanLimitCommands
  by_cases h : n.val ≤ 7
  · simp [h]
  · cases hraw : p.initScanRaw <;> simp [h]

theorem constructCommands_length_le (p : Params) (n : Fin 9) : (constructCommands p n).length ≤ 5 := by
  rw [constructCommands_length]
  split <;> decide

/-- CONSTRUCT of a legal digit count, every transfer completing. -/
theorem exec_construct {s : State} {n : Fin 9} (ho : s.secondOwner = false) (hnot : s.constructed = false) (hn : n ≠ 0)
    (hc : s.CanTransfer (constructCommands s.params n).length) (cs : Nat) :
    exec (.construct cs (n.val : Int)) s =
      .next ((s.constructedWith cs n).afterCommands (constructCommands s.params n)) := by
  have hplan : planOf (.construct cs (n.val : Int)) s = .ok (constructBody s.params cs n ++ [.writeConstructed]) := by
    rw [planOf, hnot, planConstruct_unconstructed hn, constructSteps_eq]
  rw [exec_done ho hplan (by rwa [commandsOf_construct]), performDone_construct]

theorem exec_construct_five {s : State} {n : Fin 9} (ho : s.secondOwner = false) (hnot : s.constructed = false)
    (hn : 1 ≤ n.val) (hc : s.CanTransfer 5) (cs : Nat) :
    exec (.construct cs (n.val : Int)) s =
      .next ((s.constructedWith cs n).afterCommands (constructCommands s.params n)) :=
  exec_construct ho hnot (fun h0 => absurd hn (by rw [h0]; decide))
    (hc.mono (constructCommands_length_le s.params n)) cs

theorem constructedLimit_eq {n : Fin 9} {l : Fin 8} (h : l.val = n.val) (draws : Nat) : constructedLimit n draws = l :=
  (dif_pos (by omega)).trans (Fin.ext h.symm)

/-- One to seven digits: SCAN_LIMIT is the digit count and no free value is drawn (R233). -/
theorem constructedWith_upToSeven (s : State) (cs : Nat) {n : Fin 9} {l : Fin 8} (h : l.val = n.val) :
    s.constructedWith cs n = { s with constructed := true, dev := constructedDev s.params cs n l } := by
  rw [State.constructedWith, constructedLimit_eq h, if_pos (by omega)]

theorem constructCommands_upToSeven (p : Params) {n : Fin 9} (h : n.val ≤ 7) :
    constructCommands p n =
      [⟨.shutdown, 0x01⟩, ⟨.displayTest, 0x00⟩, ⟨.intensity, BitVec.ofNat 8 p.intensityDefault.val⟩,
       ⟨.scanLimit, BitVec.ofNat 8 n.val⟩, ⟨.decodeMode, 0x00⟩] := by
  rw [constructCommands, constructFirstCommands, scanLimitCommands, if_pos h]
  rfl

/-- Settles O35: the two refusals in their order, then the two kinds of digit count. -/
theorem constructRunsItsFiveSteps : Obligations.ConstructRunsItsFiveSteps := by
  refine ⟨fun _ _ _ _ => rfl, fun s cs count ho => ⟨fun hc => ?_, fun hnot hout => ?_, ?_, ?_⟩⟩
  · exact exec_of_refusal ho (by rw [planOf, hc]; rfl)
  · refine exec_of_refusal ho ?_
    rw [planOf, hnot, planConstruct, digitCount?_eq_none.2 hout]
    rfl
  · rintro n l hnot rfl hn hl hc
    rw [exec_construct_five ho hnot hn hc, constructedWith_upToSeven s cs hl,
      constructCommands_upToSeven s.params (by omega)]
    rfl
  · rintro hnot rfl hc
    exact ⟨Config.scanLimitDraw s.draws, exec_construct_five (n := 8) ho hnot (by decide) hc cs⟩

/-! ## The order of the Commands, and what they leave on the chip -/

theorem lastSent_append_of_some {new : List Command} {op : Opcode} {d : Byte} (h : lastSent new op = some d)
    (cmd : List Command) : lastSent (cmd ++ new) op = some d := by
  obtain ⟨c, hc, rfl⟩ := Option.map_eq_some_iff.1 h
  rw [lastSent, List.reverse_append, List.find?_append, hc]
  rfl

theorem constructCommands_ops (p : Params) (n : Fin 9) :
    (constructCommands p n).map (·.op) =
      [.shutdown, .displayTest, .intensity] ++ (if n.val ≤ 7 ∨ p.initScanRaw = true then [.scanLimit] else []) ++
        [.decodeMode] := by
  unfold constructCommands constructFirstCommands scanLimitCommands
  by_cases h : n.val ≤ 7
  · simp [h]
  · cases p.initScanRaw <;> simp [h]

/-- Settles O36: the order is that of the plan, and the last shutdown and test data are those of the registers. -/
theorem constructKeepsThePowerUpOrder : Obligations.ConstructKeepsThePowerUpOrder := by
  intro s cs n ho hnot hn hc
  obtain ⟨_, hshutdown, htest, _, _⟩ := shadowsAgree_construct s.params cs n s.draws
  exact ⟨_, constructCommands s.params n, exec_construct_five ho hnot hn hc cs, rfl, constructCommands_ops s.params n,
    lastSent_append_of_some hshutdown s.cmd, lastSent_append_of_some htest s.cmd⟩

theorem constructCommands_op_mem {p : Params} {n : Fin 9} {c : Command} (h : c ∈ constructCommands p n) :
    c.op ∈ [Opcode.shutdown, .displayTest, .intensity, .scanLimit, .decodeMode] := by
  have hop : c.op ∈ (constructCommands p n).map (·.op) := List.mem_map_of_mem h
  rw [constructCommands_ops] at hop
  split at hop
  · exact hop
  · exact List.Sublist.mem hop (by decide)

/-- A byte outside the five configuration registers is not written (R231). -/
theorem perform_construct_read_other (s : State) (cs : Nat) (n : Fin 9) {a : Nat}
    (h : ∀ op ∈ [Opcode.shutdown, .displayTest, .intensity, .scanLimit, .decodeMode], a ≠ opcodeAddress op) :
    (perform (constructBody s.params cs n ++ [.writeConstructed]) s).chip.read a = s.chip.read a := by
  refine perform_read_other fun c hc => h c.op ?_
  rw [commandsOf_construct] at hc
  exact constructCommands_op_mem hc

theorem digitAddress_ne (p : Fin 8) :
    ∀ op ∈ [Opcode.shutdown, .displayTest, .intensity, .scanLimit, .decodeMode],
      opcodeAddress (.digit p) ≠ opcodeAddress op := by
  intro op hop heq
  rw [← opcodeAddress_injective heq] at hop
  simp at hop

theorem construct_ne_respond {p : Params} {cs : Nat} {n : Fin 9} {a : Action}
    (h : a ∈ constructBody p cs n ++ [.writeConstructed]) (pattern : Byte) : a ≠ .respond pattern := by
  rintro rfl
  unfold constructBody constructSettings scanLimitSteps at h
  split at h
  · simp [Setting.actions, Setting.write] at h
  · cases hraw : p.initScanRaw <;> simp [Setting.actions, Setting.write, hraw] at h

theorem act_rsp_of_ne_respond {a : Action} (h : ∀ pattern, a ≠ .respond pattern) (s : State) :
    (act a s).rsp = s.rsp := by
  cases a with
  | emit c =>
    obtain ⟨_, _, hrsp, _⟩ := act_emit_frame ⟨c, rfl⟩ s
    exact hrsp
  | respond pattern => exact absurd rfl (h pattern)
  | _ => rfl

/-- Settles O46: no step of CONSTRUCT answers, and its Commands go to the five configuration registers. -/
theorem constructFrame : Obligations.ConstructFrame := by
  intro s t cs count h
  obtain ⟨_, _, n, _, _, rfl⟩ := exec_construct_next h
  obtain ⟨hparams, hrequests, howner⟩ := perform_static (constructBody s.params cs n ++ [.writeConstructed]) s
  have hrsp : (perform (constructBody s.params cs n ++ [.writeConstructed]) s).rsp = s.rsp :=
    perform_keeps (P := fun t => t.rsp = s.rsp)
      (fun _ ha t _ ht => (act_rsp_of_ne_respond (construct_ne_respond ha) t).trans ht) rfl
  exact ⟨hparams, hrsp, hrequests, howner, fun _ => perform_construct_read_other s cs n,
    fun p => perform_construct_read_other s cs n (digitAddress_ne p)⟩

/-- Settles O37: reset by computation, and the run of CONSTRUCT field by field. -/
theorem valuesBeforeAndAfterConstruct : Obligations.ValuesBeforeAndAfterConstruct := by
  refine ⟨⟨rfl, rfl, rfl, rfl, rfl, rfl, rfl, rfl, fun _ => rfl⟩, fun s cs n ho hnot hn hc => ?_⟩
  have hexec := exec_construct_five ho hnot hn hc cs
  obtain ⟨_, _, _, _, _, hdigits⟩ := constructFrame s _ cs n.val hexec
  refine ⟨_, hexec, rfl, rfl, rfl, rfl, rfl, fun h7 => ?_, fun _ => ⟨_, rfl⟩, rfl, rfl, rfl, ?_, hdigits⟩
  · exact congrArg (fun l : Fin 8 => some l.val) (constructedLimit_eq (l := ⟨n.val, by omega⟩) rfl s.draws)
  · rw [State.afterCommands_cmd, List.length_append, constructCommands_length]
    rfl

end Sys2Proof.Machine
end

section
/-! PROOFS, family other: the refusals before an operation's own tests (R203, R205, R212, R237) and the silent
rejections (R201). -/

namespace Sys2Proof.Machine

open Sys2Proof

/-! ## Before construction -/

theorem exec_notConstructed {i : Instr} {s : State} {p : Plan} (ho : s.secondOwner = false)
    (hnot : s.constructed = false) (hi : planOf i s = whenConstructed s p) : exec i s = .refused .notConstructed :=
  exec_of_refusal ho (by rw [hi, whenConstructed, hnot]; rfl)

/-- Settles O38: the construction test stands before each controller plan, and in neither lookup's. -/
theorem requestBeforeConstructionIsRefused : Obligations.RequestBeforeConstructionIsRefused := fun s ho hnot =>
  ⟨fun _ => exec_notConstructed ho hnot rfl, fun _ => exec_notConstructed ho hnot rfl,
    fun _ => exec_notConstructed ho hnot rfl, fun _ => exec_notConstructed ho hnot rfl,
    fun _ => exec_notConstructed ho hnot rfl, fun _ _ _ => exec_notConstructed ho hnot rfl,
    fun _ _ _ => exec_notConstructed ho hnot rfl, fun _ _ => exec_notConstructed ho hnot rfl,
    fun _ _ => exec_notConstructed ho hnot rfl, fun _ => exec_notConstructed ho hnot rfl,
    fun v hb => exec_answer ho rfl (digitPattern_val s.params.digitRom v) hb,
    fun c hlow hb => exec_answer ho rfl (charPattern_blank (by omega) (by omega)) hb⟩

/-! ## A second owner -/

theorem exec_secondOwner (i : Instr) {s : State} (h : s.secondOwner = true) : exec i s = .refused .secondOwner := by
  rw [exec_eq_plan]
  exact if_pos h

theorem runFrame_secondOwner (f : Frame) {s : State} (h : s.secondOwner = true) :
    runFrame f s = .refused .secondOwner := by
  unfold runFrame
  cases decodeFrame f with
  | ok i => exact exec_secondOwner i h
  | error e => exact if_pos h

/-- Settles O39: the owner's guard stands before every plan and before the refusal of a frame. -/
theorem secondOwnerIsRefusedFirst : Obligations.SecondOwnerIsRefusedFirst := by
  refine ⟨fun i s h => exec_secondOwner i h, fun s f rest h hb hr => ?_⟩
  rw [step_request hb hr]
  exact runFrame_secondOwner f h

/-! ## Silent rejections -/

/-- Eight digits without INIT_SCAN_RAW: no scan-limit Command is among the four (R233). -/
theorem constructCommands_eight_silent {p : Params} (h : p.initScanRaw = false) :
    (constructCommands p 8).length = 4 ∧ ∀ c ∈ constructCommands p 8, c.op ≠ .scanLimit := by
  unfold constructCommands constructFirstCommands scanLimitCommands
  simp [h]

/-- Settles O40: every rejected operand has the empty plan, and the skipped step 4 sends nothing. -/
theorem silentRejectionChangesNothing : Obligations.SilentRejectionChangesNothing := by
  refine ⟨fun s hs => ⟨fun level hout => ?_, fun limit hout => ?_, fun index value dp hout => ?_,
    fun index value dp hout => ?_, fun n hour minute hn hne => ?_, fun n total hn hne => ?_⟩,
    fun s cs ho hnot hraw hc => ?_⟩
  · exact exec_nop_of_accepts hs rfl (planSetIntensity_out hout)
  · exact exec_nop_of_accepts hs rfl (planSetScanLimit_out hout)
  · exact exec_nop_of_accepts hs rfl (planSetDigit_out (by omega))
  · exact exec_nop_of_accepts hs rfl (planSetDigit_out (by omega))
  · exact exec_nop_of_accepts hs (planOf_displayTime hn hour minute)
      (planDisplayTime_otherCount s.params hne hour minute)
  · exact exec_nop_of_accepts hs (planOf_displayMinutes hn total) (planDisplayMinutes_otherCount s.params hne total)
  · obtain ⟨hlength, hsilent⟩ := constructCommands_eight_silent hraw
    have hexec := exec_construct (n := 8) ho hnot (by decide) (by rwa [hlength]) cs
    refine ⟨_, hexec, rfl, timesSent_append_of_ne hsilent s.cmd, ?_⟩
    rw [State.afterCommands_cmd, List.length_append, hlength]
    rfl

end Sys2Proof.Machine
end
